-- ==== Sys2Proof/Word.lean ====
section
/-! DEFINITION. The word types of CORE's ports and of its angles (30_encoding.md R40, R43; 10_state.md R17). -/

namespace Sys2Proof

/-- The command word `CMD` (30_encoding.md R40). -/
abbrev Command := BitVec 32

/-- An operand word `A`, `B` or a result word `R0`, `R1` (R40, R43). -/
abbrev Word := BitVec 64

/-- The status word `STATUS` (R43, R46). -/
abbrev StatusWord := BitVec 8

/-- A 16-bit binary angle: value/2^16 turns, arithmetic modulo 2^16 (10_state.md R17). -/
abbrev Brad16 := BitVec 16

/-- A 32-bit binary angle (R17). No operation of CORE takes one (00_scope.md R5). -/
abbrev Brad32 := BitVec 32

end Sys2Proof
end

