-- ==== Sys2Proof/Config.lean ====
section
/-! DEFINITION. The configuration record `CFG` (00_scope.md R6), the reference configuration `REFCFG` (R8), and the
free values of the model, which have no body (60_exceptions.md R176; 10_state.md R25). -/

namespace Sys2Proof

/-- `OverflowPolicy` (10_state.md R18). -/
inductive OverflowPolicy where
  | wrap
  | saturate
  | trap
deriving DecidableEq, Repr

/-- `RoundingPolicy` (10_state.md R19); also the values of `TOINT_MODE` (00_scope.md R6). -/
inductive RoundingPolicy where
  | truncate
  | nearest
  | floor
  | ceil
deriving DecidableEq, Repr

/-- How a Q-format word is read: the `S` of a format (10_state.md R15). -/
inductive Signedness where
  | signed
  | unsigned
deriving DecidableEq, Repr

/-- One entry `(W, F, S)` of `CFG.FORMATS` (00_scope.md R6): total width, fractional bits, signedness. -/
structure Format where
  width : Nat
  frac  : Nat
  sign  : Signedness
deriving DecidableEq, Repr

/-- The record `CFG` (00_scope.md R6). `nrRecipIters` is held because R6 lists it; no result depends on it (43_newton.md R120). DESIGN
CHOICE (entry 21), safe: R6 gives it the range "integer" alone; it is a natural number here, with no upper bound. -/
structure Cfg where
  overflow     : OverflowPolicy
  rounding     : RoundingPolicy
  cordicN      : Nat
  formats      : List Format
  nrIsqrtIters : Nat
  nrRecipIters : Nat
  toIntMode    : RoundingPolicy
deriving DecidableEq, Repr

/-- `REFCFG` (00_scope.md R8). R8 gives no `NR_RECIP_ITERS`: 3 here is a DESIGN CHOICE (entry 1), unobservable. -/
def Cfg.ref : Cfg where
  overflow     := .saturate
  rounding     := .truncate
  cordicN      := 16
  formats      :=
    [⟨32, 16, .signed⟩, ⟨16, 15, .signed⟩, ⟨16, 8, .signed⟩, ⟨16, 8, .unsigned⟩,
     ⟨8, 4, .signed⟩, ⟨8, 8, .unsigned⟩, ⟨32, 16, .unsigned⟩, ⟨64, 32, .signed⟩]
  nrIsqrtIters := 3
  nrRecipIters := 3
  toIntMode    := .floor

/-- `R0` of a trapped response: unspecified (60_exceptions.md R176; 93_implementation_defined.md U1). A free value; DEDUCED
(00_scope.md R7, 30_encoding.md R54): a function of the configuration and the request `CMD`, `A`, `B` (entry 3). -/
opaque Config.trapR0 : Cfg → Command → Word → Word → Word

/-- `R1` of a trapped response: unspecified, as `Config.trapR0` (entry 3). -/
opaque Config.trapR1 : Cfg → Command → Word → Word → Word

/-- `R0` on the response port while no response is offered: unspecified (10_state.md R25; 93 U7). A free value, drawn anew
at every step (entry 8). -/
opaque Config.idleR0 : Nat → Word

/-- `R1` on the response port while no response is offered (entry 8). -/
opaque Config.idleR1 : Nat → Word

/-- `STATUS` on the response port while no response is offered (entry 8). -/
opaque Config.idleStatus : Nat → StatusWord

end Sys2Proof
end

