-- ==== Sys2Proof/Syntax.lean ====
section
/-! DEFINITION. The 24 operations of CORE (30_encoding.md R47), one constructor per row of the opcode table. An operation
that takes a format carries `fmt`, the index into `CFG.FORMATS` (R48). -/

namespace Sys2Proof

/-- A command of CORE. The operands are not part of it: they are the request's words `A` and `B` (R41). -/
inductive Instr where
  /-- 0x01 QADD -/
  | qadd (fmt : Nat)
  /-- 0x02 QSUB -/
  | qsub (fmt : Nat)
  /-- 0x03 QMUL -/
  | qmul (fmt : Nat)
  /-- 0x04 QDIV -/
  | qdiv (fmt : Nat)
  /-- 0x05 QABS -/
  | qabs (fmt : Nat)
  /-- 0x06 QNEG -/
  | qneg (fmt : Nat)
  /-- 0x07 QONE -/
  | qone (fmt : Nat)
  /-- 0x08 QHALF -/
  | qhalf (fmt : Nat)
  /-- 0x09 QFROMINT -/
  | qfromint (fmt : Nat)
  /-- 0x0A QTOINT -/
  | qtoint (fmt : Nat)
  /-- 0x10 SATADD -/
  | satadd (fmt : Nat)
  /-- 0x11 SATSUB -/
  | satsub (fmt : Nat)
  /-- 0x12 RSHR -/
  | rshr
  /-- 0x13 NARROW -/
  | narrow (fmt : Nat)
  /-- 0x20 SINCOS -/
  | sincos
  /-- 0x21 ATAN2M -/
  | atan2m
  /-- 0x30 RECIP32 -/
  | recip32
  /-- 0x31 ISQRT16 -/
  | isqrt16
  /-- 0x32 SQRT16 -/
  | sqrt16
  /-- 0x33 FDIV16 -/
  | fdiv16
  /-- 0x40 DIV32 -/
  | div32
  /-- 0x41 SDIV32 -/
  | sdiv32
  /-- 0x50 EXP16 -/
  | exp16
  /-- 0x51 LN16 -/
  | ln16
deriving DecidableEq, Repr

/-- The format index an operation carries; `none` for the operations whose `fmt` field must be 0 (R48). -/
def Instr.fmt? : Instr → Option Nat
  | .qadd n => some n
  | .qsub n => some n
  | .qmul n => some n
  | .qdiv n => some n
  | .qabs n => some n
  | .qneg n => some n
  | .qone n => some n
  | .qhalf n => some n
  | .qfromint n => some n
  | .qtoint n => some n
  | .satadd n => some n
  | .satsub n => some n
  | .rshr => none
  | .narrow n => some n
  | .sincos => none
  | .atan2m => none
  | .recip32 => none
  | .isqrt16 => none
  | .sqrt16 => none
  | .fdiv16 => none
  | .div32 => none
  | .sdiv32 => none
  | .exp16 => none
  | .ln16 => none

end Sys2Proof
end

