-- ==== Sys2Proof/WellFormed.lean ====
section
/-! DEFINITION. What a legal configuration is (00_scope.md R6), what a well-formed command is (the 4-bit `fmt` field,
30_encoding.md R41), and when a command is legal on an instance (R48). -/

namespace Sys2Proof

/-- A legal triple `(W, F, S)` (00_scope.md R6): `W` in {8, 16, 32, 64}; `F <= W` unsigned, `F <= W - 1` signed. -/
def Format.wf (f : Format) : Bool :=
  (f.width == 8 || f.width == 16 || f.width == 32 || f.width == 64) &&
    match f.sign with
    | .signed => decide (f.frac + 1 ≤ f.width)
    | .unsigned => decide (f.frac ≤ f.width)

/-- A legal `CFG` (00_scope.md R6; 93_implementation_defined.md U12). `NR_RECIP_ITERS` is not bounded (entry 21). -/
def Cfg.wf (c : Cfg) : Bool :=
  decide (1 ≤ c.cordicN ∧ c.cordicN ≤ 24) &&
  decide (1 ≤ c.formats.length ∧ c.formats.length ≤ 16) &&
  c.formats.all Format.wf &&
  decide (c.nrIsqrtIters ≤ 8)

/-- The command fits its encoding: `fmt` is a 4-bit field (R41). -/
def Instr.wellFormed (i : Instr) : Bool :=
  match i.fmt? with
  | some n => decide (n < 16)
  | none => true

/-- The command is legal on an instance with configuration `c`: `fmt` is below the number of formats (R48). -/
def Instr.legal (c : Cfg) (i : Instr) : Bool :=
  i.wellFormed &&
    match i.fmt? with
    | some n => decide (n < c.formats.length)
    | none => true

end Sys2Proof
end

