-- ==== Sys2Proof/Decode.lean ====
section
/-! DEFINITION. The decoder and the encoder of the command word (30_encoding.md R41, R47, R48), and the opcode table's rows
as masks and patterns. -/

namespace Sys2Proof

/-- Why a command word names no operation (30_encoding.md R49). -/
inductive DecodeError where
  /-- `CMD[31:12]` is not 0. -/
  | zeroFieldNotZero
  /-- `CMD[7:0]` is no opcode of R47. -/
  | unassignedOpcode (opcode : Nat)
  /-- `CMD[11:8]` is not 0 on an operation that takes no format (R48). -/
  | fmtNotZero (opcode : Nat)
deriving DecidableEq, Repr

/-- The field `opcode`, bits 7:0 (R41). -/
def Command.opcode (cmd : Command) : Nat := cmd.toNat % 256

/-- The field `fmt`, bits 11:8 (R41). -/
def Command.fmt (cmd : Command) : Nat := cmd.toNat / 256 % 16

/-- The field `zero`, bits 31:12 (R41). -/
def Command.zero (cmd : Command) : Nat := cmd.toNat / 4096

/-- An operation that takes no format: `fmt` must be 0 (R48). -/
def withoutFmt (opcode fmt : Nat) (i : Instr) : Except DecodeError Instr :=
  if fmt = 0 then .ok i else .error (.fmtNotZero opcode)

/-- The operation an opcode names (R47). -/
def decodeFields (opcode fmt : Nat) : Except DecodeError Instr :=
  match opcode with
  | 0x01 => .ok (.qadd fmt)
  | 0x02 => .ok (.qsub fmt)
  | 0x03 => .ok (.qmul fmt)
  | 0x04 => .ok (.qdiv fmt)
  | 0x05 => .ok (.qabs fmt)
  | 0x06 => .ok (.qneg fmt)
  | 0x07 => .ok (.qone fmt)
  | 0x08 => .ok (.qhalf fmt)
  | 0x09 => .ok (.qfromint fmt)
  | 0x0A => .ok (.qtoint fmt)
  | 0x10 => .ok (.satadd fmt)
  | 0x11 => .ok (.satsub fmt)
  | 0x12 => withoutFmt 0x12 fmt .rshr
  | 0x13 => .ok (.narrow fmt)
  | 0x20 => withoutFmt 0x20 fmt .sincos
  | 0x21 => withoutFmt 0x21 fmt .atan2m
  | 0x30 => withoutFmt 0x30 fmt .recip32
  | 0x31 => withoutFmt 0x31 fmt .isqrt16
  | 0x32 => withoutFmt 0x32 fmt .sqrt16
  | 0x33 => withoutFmt 0x33 fmt .fdiv16
  | 0x40 => withoutFmt 0x40 fmt .div32
  | 0x41 => withoutFmt 0x41 fmt .sdiv32
  | 0x50 => withoutFmt 0x50 fmt .exp16
  | 0x51 => withoutFmt 0x51 fmt .ln16
  | op => .error (.unassignedOpcode op)

/-- The decoder: total on the 2^32 command words, rejecting by name (R47 to R50). Whether `fmt` is below the number of
formats is the instance's question (`Instr.legal`), answered by the meaning. -/
def decode (cmd : Command) : Except DecodeError Instr :=
  if Command.zero cmd = 0 then decodeFields (Command.opcode cmd) (Command.fmt cmd) else .error .zeroFieldNotZero

/-- The legal command words of an instance (R47, R48): `CMD` decodes, and its `fmt` names a format of `c`. -/
def legalCommand (c : Cfg) (cmd : Command) : Bool :=
  match decode cmd with
  | .ok i => i.legal c
  | .error _ => false

/-- The opcode of an operation (R47). -/
def Instr.opcode : Instr → Nat
  | .qadd _ => 0x01
  | .qsub _ => 0x02
  | .qmul _ => 0x03
  | .qdiv _ => 0x04
  | .qabs _ => 0x05
  | .qneg _ => 0x06
  | .qone _ => 0x07
  | .qhalf _ => 0x08
  | .qfromint _ => 0x09
  | .qtoint _ => 0x0A
  | .satadd _ => 0x10
  | .satsub _ => 0x11
  | .rshr => 0x12
  | .narrow _ => 0x13
  | .sincos => 0x20
  | .atan2m => 0x21
  | .recip32 => 0x30
  | .isqrt16 => 0x31
  | .sqrt16 => 0x32
  | .fdiv16 => 0x33
  | .div32 => 0x40
  | .sdiv32 => 0x41
  | .exp16 => 0x50
  | .ln16 => 0x51

/-- The encoder: `CMD = (fmt << 8) | opcode` (30_encoding.md R52). -/
def encode (i : Instr) : Command :=
  BitVec.ofNat 32 ((i.fmt?.getD 0) * 256 + i.opcode)

/-- One row of the opcode table: `CMD` matches when `CMD & mask = pattern`. -/
structure OpcodeRow where
  pattern : Nat
  mask    : Nat
deriving DecidableEq, Repr

/-- The rows whose `fmt` selects a format: mask 0xFFFFF0FF (opcode_table.json). -/
def formatRows : List OpcodeRow :=
  [0x01, 0x02, 0x03, 0x04, 0x05, 0x06, 0x07, 0x08, 0x09, 0x0A, 0x10, 0x11, 0x13].map (⟨·, 0xFFFFF0FF⟩)

/-- The rows whose `fmt` must be 0: mask 0xFFFFFFFF (opcode_table.json). -/
def fixedRows : List OpcodeRow :=
  [0x12, 0x20, 0x21, 0x30, 0x31, 0x32, 0x33, 0x40, 0x41, 0x50, 0x51].map (⟨·, 0xFFFFFFFF⟩)

/-- The opcode table, 24 rows (R47). -/
def opcodeRows : List OpcodeRow := formatRows ++ fixedRows

/-- The command word `cmd` matches the row. -/
def OpcodeRow.hits (r : OpcodeRow) (cmd : Command) : Bool := (cmd.toNat &&& r.mask) == r.pattern

/-- No command word matches both rows: they differ in a bit that both fix. -/
def OpcodeRow.disjoint (r q : OpcodeRow) : Bool := (r.pattern ^^^ q.pattern) &&& (r.mask &&& q.mask) != 0

/-- The operation the decoder reads from a table word of `nbits` bits, the bits above it 0. CORE moves words, not bytes
(20_memory.md R31), and every command is one 32-bit word (30_encoding.md R40, R51). -/
def decodeTableWord (nbits w : Nat) : Option Instr :=
  match decode (BitVec.ofNat 32 (w % 2 ^ nbits)) with
  | .ok i => some i
  | .error _ => none

end Sys2Proof
end

