-- ==== Sys2Proof/Machine/State.lean ====
section
/-! DEFINITION. The state of one instance of CORE and of the host side of its two ports (10_state.md R24; 70_reset_and_hazards.md
R190, R194), its reset value, and why a step can stop. -/

namespace Sys2Proof.Machine

/-- Why a run ends in a failure. -/
inductive Fault where
  /-- The host took a response with `STATUS.TRAP = 1` and stops on traps (60_exceptions.md R176: "A model treats a response with
  TRAP = 1 as a fault"). Raised by `takeResponse` only, never by an operation. Safe: the run stops where CORE would serve the
  next request; with `stopOnTrap = false` the model goes on as CORE does (R181). -/
  | trapResponse
deriving DecidableEq, Repr

/-- Why the model gives a step no meaning. -/
inductive Refusal where
  /-- `exec` has no meaning for the operation yet. Raised by a refused arm of `exec` (there is none). Safe. -/
  | notModelled (mnemonic : String)
  /-- The host took a response with `STATUS.ILL = 1` and stops on illegal commands (30_encoding.md R49: "A model should treat an
  illegal command as a refusal"). Raised by `takeResponse` only. Safe; with `stopOnIll = false` the model goes on as CORE does. -/
  | illegalCommand
  /-- The configuration is outside the legal ranges of 00_scope.md R6: no such instance exists (93_implementation_defined.md
  U12: refuse). Raised by `cycle` before anything else. Safe. -/
  | noSuchInstance
deriving DecidableEq, Repr

/-- A response (30_encoding.md R43). -/
structure Response where
  r0     : Word
  r1     : Word
  status : StatusWord
deriving DecidableEq, Repr

/-- The levels the host drives in one step (70_reset_and_hazards.md R190, R194): the reset input, `req_valid`, the request
payload `CMD`, `A`, `B`, and `rsp_ready`. -/
structure HostSignals where
  resetIn  : Bool
  reqValid : Bool
  cmd      : Command
  opA      : Word
  opB      : Word
  rspReady : Bool
deriving DecidableEq, Repr

/-- One instance of CORE with the host side of its ports. `cfg` and `pending` are CORE's (00_scope.md R6, 10_state.md R24); `host`
is the level of the ports' inputs in this step and `script` the levels of the steps to come; `responses` is what the host has
taken, oldest first; `stopOnTrap` and `stopOnIll` are the host's answer to a TRAP and an ILL response (60_exceptions.md R176,
30_encoding.md R49); `draws` is the model's own counter of free values. -/
structure State where
  cfg        : Cfg
  pending    : Option Response
  host       : HostSignals
  script     : List HostSignals
  responses  : List Response
  stopOnTrap : Bool
  stopOnIll  : Bool
  draws      : Nat
deriving DecidableEq, Repr

/-- The machine right after reset (10_state.md R25, 70_reset_and_hazards.md R190): `pending = none`. `cfg` is `REFCFG` (entry 1);
the host drives nothing and has taken nothing (entries 4, 5, 6, 18). -/
def State.reset : State where
  cfg        := Cfg.ref
  pending    := none
  host       := ⟨false, false, 0, 0, 0, false⟩
  script     := []
  responses  := []
  stopOnTrap := true
  stopOnIll  := true
  draws      := 0

end Sys2Proof.Machine
end

