-- ==== Sys2Proof/Machine/Operands.lean ====
section
/-! DEFINITION. The notation of 00_scope.md section 6 (readings of words, extensions, shifts, division) and the operand classes of
30_encoding.md R42, 40_saturate_round.md R60, R61, R64. All arithmetic is on unbounded integers. -/

namespace Sys2Proof.Machine

/-- `uint_W(v) = v mod 2^W`. -/
def uintW (w : Nat) (v : Int) : Int := v % 2 ^ w

/-- `sint_W(u)`: the two's complement reading of `u` in `[0, 2^W)`. -/
def sintW (w : Nat) (u : Int) : Int := if u < 2 ^ (w - 1) then u else u - 2 ^ w

/-- `word[W-1:0]` as an unsigned integer. -/
def lowBits (w : Nat) (x : Word) : Int := ((x.toNat % 2 ^ w : Nat) : Int)

/-- `sext_64(v) = uint_64(v)` as a 64-bit word. -/
def sext64 (v : Int) : Word := BitVec.ofInt 64 v

/-- `zext_64(u) = u` for `u` in `[0, 2^W)`. -/
def zext64 (u : Int) : Word := BitVec.ofNat 64 u.toNat

/-- `asr(v, s) = floor(v / 2^s)`. -/
def asr (v : Int) (s : Nat) : Int := v / 2 ^ s

/-- `v << s = v · 2^s`. -/
def shl (v : Int) (s : Nat) : Int := v * 2 ^ s

/-- `tdiv(a, b)`: the quotient rounded toward zero, for `b != 0`. -/
def tdiv (a b : Int) : Int := a.tdiv b

/-- `abs(v)`. -/
def absI (v : Int) : Int := v.natAbs

/-- `clamp(v, lo, hi) = min(max(v, lo), hi)`. -/
def clamp (v lo hi : Int) : Int := min (max v lo) hi

/-- The number of bits of `u`: 0 for 0, else one more than the place of the highest set bit. -/
def bitLength (u : Nat) : Nat := if u = 0 then 0 else u.log2 + 1

/-- `clz32(u) = 32 - bitlength(u)`; `clz32(0) = 32`. -/
def clz32 (u : Nat) : Nat := 32 - bitLength u

/-- `msb32(u) = 31 - clz32(u)` for `u != 0`. -/
def msb32 (u : Nat) : Nat := 31 - clz32 u

/-- `fmt_min(W, S)` (40_saturate_round.md R60). -/
def fmtMin (f : Format) : Int :=
  match f.sign with
  | .signed => -(2 ^ (f.width - 1))
  | .unsigned => 0

/-- `fmt_max(W, S)` (R60). -/
def fmtMax (f : Format) : Int :=
  match f.sign with
  | .signed => 2 ^ (f.width - 1) - 1
  | .unsigned => 2 ^ f.width - 1

/-- The operand class `q`: `operand(word, W, S)` (R61). Bits `63:W` are ignored. -/
def operand (f : Format) (x : Word) : Int :=
  match f.sign with
  | .signed => sintW f.width (lowBits f.width x)
  | .unsigned => lowBits f.width x

/-- The operand class `i64` (30_encoding.md R42). -/
def readI64 (x : Word) : Int := sintW 64 (lowBits 64 x)

/-- The operand class `i32` (R42). -/
def readI32 (x : Word) : Int := sintW 32 (lowBits 32 x)

/-- The operand class `u32` (R42). -/
def readU32 (x : Word) : Nat := x.toNat % 2 ^ 32

/-- The operand class `i16`, a brad16 angle read as a signed number (R42, 10_state.md R17). -/
def readI16 (x : Word) : Int := sintW 16 (lowBits 16 x)

/-- The operand class `sh6`: bits 5:0 (R42). -/
def readSh6 (x : Word) : Nat := x.toNat % 2 ^ 6

/-- `put(v, W, S)` (R64). -/
def put (f : Format) (v : Int) : Word :=
  match f.sign with
  | .signed => sext64 v
  | .unsigned => zext64 v

/-- The Q16.16 format of the Newton, exp and ln units: 32 bits, 16 fractional, signed (43_newton.md, 45_explog.md). -/
def q16 : Format := ⟨32, 16, .signed⟩

/-- The largest raw value of Q16.16, `0x7FFFFFFF`. -/
def q16Max : Int := 0x7FFFFFFF

/-- The smallest raw value of Q16.16, `-2^31`. -/
def q16Min : Int := -0x80000000

end Sys2Proof.Machine
end

