-- ==== Sys2Proof/Machine/Flags.lean ====
section
/-! DEFINITION. The status word (30_encoding.md R46, 60_exceptions.md R170 to R177) and the computation of `FO` and `TRAP`
(40_saturate_round.md R63). -/

namespace Sys2Proof.Machine

/-- The named bits of `STATUS` (30_encoding.md R46). Bits 7:6 are always 0. -/
structure StatusBits where
  dz   : Bool := false
  de   : Bool := false
  ro   : Bool := false
  fo   : Bool := false
  trap : Bool := false
  ill  : Bool := false
deriving DecidableEq, Repr

/-- The status word with these bits: `DZ` 0, `DE` 1, `RO` 2, `FO` 3, `TRAP` 4, `ILL` 5 (R46). -/
def statusWord (b : StatusBits) : StatusWord :=
  BitVec.ofNat 8
    (b.dz.toNat + 2 * b.de.toNat + 4 * b.ro.toNat + 8 * b.fo.toNat + 16 * b.trap.toNat + 32 * b.ill.toNat)

/-- `STATUS.DZ`, DivideByZero (60_exceptions.md R171). -/
def hasDz (r : Response) : Bool := r.status.getLsbD 0

/-- `STATUS.DE`, DomainError (R172). -/
def hasDe (r : Response) : Bool := r.status.getLsbD 1

/-- `STATUS.RO`, RangeOverflow (R173). -/
def hasRo (r : Response) : Bool := r.status.getLsbD 2

/-- `STATUS.FO`, FormatOverflow (R174). -/
def hasFo (r : Response) : Bool := r.status.getLsbD 3

/-- `STATUS.TRAP` (R176). -/
def hasTrap (r : Response) : Bool := r.status.getLsbD 4

/-- `STATUS.ILL` (R177). -/
def hasIll (r : Response) : Bool := r.status.getLsbD 5

/-- What `resolve` yields: a raw value in range with the bit `FO`, or `raise TRAP`, whose value is unspecified (R63). -/
inductive Resolved where
  | value (r : Int) (fo : Bool)
  | trapped
deriving DecidableEq, Repr

/-- `v` is in the range of the format (R60). -/
def inRange (f : Format) (v : Int) : Bool := decide (fmtMin f ≤ v ∧ v ≤ fmtMax f)

/-- `wrap`: the low `W` bits, read in the format (R63). -/
def wrapTo (f : Format) (v : Int) : Int :=
  match f.sign with
  | .signed => sintW f.width (uintW f.width v)
  | .unsigned => uintW f.width v

/-- `saturate`: the nearer extreme of the format (R63). -/
def clampTo (f : Format) (v : Int) : Int := clamp v (fmtMin f) (fmtMax f)

/-- `resolve(v, W, S, policy)` (R63). -/
def resolve (f : Format) (policy : OverflowPolicy) (v : Int) : Resolved :=
  if inRange f v then .value v false
  else match policy with
    | .wrap => .value (wrapTo f v) true
    | .saturate => .value (clampTo f v) true
    | .trap => .trapped

end Sys2Proof.Machine
end

