-- ==== Sys2Proof/Machine/Ops.lean ====
section
/-! DEFINITION. The named operations every meaning and the handshake are built on: the rounding shift, forming a response, raising
TRAP and answering ILL, and the events of the ports (70_reset_and_hazards.md R190, R194). -/

namespace Sys2Proof.Machine

/-- The outcome of a step or of a meaning. -/
abbrev Result := Host.Outcome State Fault Refusal

/-- `rshift_round(v, s, mode)` (40_saturate_round.md R62). -/
def rshiftRound (mode : RoundingPolicy) (v : Int) (s : Nat) : Int :=
  if s = 0 then v
  else match mode with
    | .floor => asr v s
    | .ceil => -asr (-v) s
    | .truncate => if 0 ≤ v then asr v s else -asr (-v) s
    | .nearest => asr (v + 2 ^ (s - 1)) s

/-- A normal response: the two result words and the status bits an operation sets (30_encoding.md R45). -/
def respond (r0 : Word) (r1 : Word) (b : StatusBits) : Response := ⟨r0, r1, statusWord b⟩

/-- `raise TRAP` (60_exceptions.md R176, R180): `FO` and `TRAP` together, `R0` and `R1` unspecified. Nothing is saved and control
goes nowhere. The result words are the free values of Config, applied to the configuration and the request (entry 3). -/
def raiseTrap (s : State) : Response :=
  ⟨Config.trapR0 s.cfg s.host.cmd s.host.opA s.host.opB, Config.trapR1 s.cfg s.host.cmd s.host.opA s.host.opB,
    statusWord { fo := true, trap := true }⟩

/-- The response to an illegal command (30_encoding.md R49, 60_exceptions.md R177): zero words, `ILL` alone. -/
def illegalResponse : Response := respond 0 0 { ill := true }

/-- The response of an operation whose one result `v` goes through `resolve` under `CFG.OVERFLOW_POLICY` (40 R63, R64). -/
def resolvedResponse (s : State) (f : Format) (v : Int) : Response :=
  match resolve f s.cfg.overflow v with
  | .value r fo => respond (put f r) 0 { fo := fo }
  | .trapped => raiseTrap s

/-- The response of SATADD and SATSUB: always clamped, `FO` when the clamp changed the value, never a trap (R65, R66). -/
def clampedResponse (f : Format) (v : Int) : Response :=
  respond (put f (clampTo f v)) 0 { fo := decide (clampTo f v ≠ v) }

/-- The value of a quotient by 0: the extreme with the sign of the dividend, zero counting as non-negative (60 R171). -/
def zeroDivisorValue (f : Format) (a : Int) : Int := if a < 0 then fmtMin f else fmtMax f

/-- The response of a quotient by 0: `DZ` alone, whatever the policy (R171). -/
def zeroDivisorResponse (f : Format) (a : Int) : Response := respond (put f (zeroDivisorValue f a)) 0 { dz := true }

/-- The one transaction CORE holds becomes `p` (10_state.md R24). -/
def setPending (p : Option Response) (s : State) : State := { s with pending := p }

/-- The host keeps the response `r`, the latest of those it has taken (70 R194, entry 18). -/
def recordResponse (r : Response) (s : State) : State := { s with responses := s.responses ++ [r] }

/-- The operation's response becomes the pending transaction (70_reset_and_hazards.md R194.2). -/
def answer (r : Response) (s : State) : Result := .next (setPending (some r) s)

/-- An operation in the format `CFG.FORMATS[fmt]`; a `fmt` not below the number of formats is an illegal command (30 R48, R49). -/
def inFormat (fmt : Nat) (s : State) (k : Format → Response) : Result :=
  match s.cfg.formats[fmt]? with
  | some f => answer (k f) s
  | none => answer illegalResponse s

/-- `req_ready`: CORE holds no transaction and is not in reset (70 R194.1, R190). -/
def reqReady (s : State) : Bool := !s.host.resetIn && s.pending.isNone

/-- `rsp_valid`: a response is offered (R194.2, R190). -/
def rspValid (s : State) : Bool := !s.host.resetIn && s.pending.isSome

/-- The payload of the response port; unspecified while no response is offered (10_state.md R25, 93 U7; entry 8). -/
def rspPayload (s : State) : Response :=
  match s.host.resetIn, s.pending with
  | false, some r => r
  | _, _ => ⟨Config.idleR0 s.draws, Config.idleR1 s.draws, Config.idleStatus s.draws⟩

/-- Reset is asserted: the transaction in flight is dropped, no request is accepted, `CFG` is untouched (70 R190, R197). -/
def resetEvent (s : State) : Result := .next (setPending none s)

/-- The host takes the response `r` (R194.3). What a TRAP or an ILL response means is the host's: the run ends there, or CORE goes
on with the next request (60 R176, R181; 30 R49; entries 4 and 5). -/
def takeResponse (r : Response) (s : State) : Result :=
  if hasTrap r && s.stopOnTrap then .fault .trapResponse
  else if hasIll r && s.stopOnIll then .refused .illegalCommand
  else .next (recordResponse r (setPending none s))

/-- Nothing is accepted and nothing is taken: CORE waits (R194.5). -/
def waitEvent (s : State) : Result := .next s

/-- The levels after the script has ended: the host drives nothing (entry 6). -/
def quiet (h : HostSignals) : HostSignals := { h with resetIn := false, reqValid := false, rspReady := false }

/-- The host's next levels, and the free-value counter: what every step does after its own effect (entries 6, 8). -/
def advance (s : State) : State :=
  match s.script with
  | [] => { s with host := quiet s.host, draws := s.draws + 1 }
  | h :: rest => { s with host := h, script := rest, draws := s.draws + 1 }

/-- The host's levels move on after a step that answers a next state. -/
def afterStep (o : Result) : Result :=
  match o with
  | .next s => .next (advance s)
  | .fault r => .fault r
  | .refused r => .refused r

end Sys2Proof.Machine
end

