-- ==== Sys2Proof/Machine/Cordic.lean ====
section
/-! DEFINITION. The CORDIC engine: SINCOS and ATAN2M by the reference algorithms (42_cordic.md R102, R105; entry 2), over the tables
of 10_state.md R20, R21. -/

namespace Sys2Proof.Machine

/-- `ATAN16` (10_state.md R20); entries 15 to 23 are 0. -/
def atan16Table : List Int :=
  [8192, 4836, 2555, 1297, 651, 326, 163, 81, 41, 20, 10, 5, 3, 1, 1, 0, 0, 0, 0, 0, 0, 0, 0, 0]

/-- `ATAN16[i]`, `i = 0 .. 23`. -/
def atan16 (i : Nat) : Int := atan16Table.getD i 0

/-- `INVK30[1 .. 24]` (10_state.md R21); entries 15 to 24 are equal. -/
def invK30Table : List Int :=
  [759250125, 679093957, 658817909, 653730436, 652457347, 652138997, 652059405, 652039507, 652034532, 652033289,
   652032978, 652032900, 652032881, 652032876] ++ List.replicate 10 652032874

/-- `INVK30[N]`, `N = 1 .. 24`. Outside that range no instance exists and `cycle` refuses (entry 9). -/
def invK30 (n : Nat) : Int := invK30Table.getD (n - 1) 0

/-- The working vector of an iteration: `(x, y)` and the residual or accumulated angle (10_state.md R14). -/
structure CordicVec where
  x : Int
  y : Int
  z : Int
deriving DecidableEq, Repr

/-- Iteration `i` of rotation mode (R102 step 3). The three assignments are simultaneous; `z = 0` counts as non-negative. -/
def rotateStep (i : Nat) (v : CordicVec) : CordicVec :=
  if 0 ≤ v.z then ⟨v.x - asr v.y i, v.y + asr v.x i, v.z - atan16 i⟩
  else ⟨v.x + asr v.y i, v.y - asr v.x i, v.z + atan16 i⟩

/-- Iterations `0 .. n-1` of rotation mode. -/
def rotate (v : CordicVec) : Nat → CordicVec
  | 0 => v
  | n + 1 => rotateStep n (rotate v n)

/-- The reduced angle of step 1 (R102): `t` in `0 .. 16384`, from the signed angle `a`. -/
def reducedAngle (a : Int) : Int :=
  let t := if a < 0 then -a else a
  if 16384 ≤ t then 32768 - t else t

/-- The sine is negated (R102 step 1). -/
def negSin (a : Int) : Bool := decide (a < 0)

/-- The cosine is negated (R102 step 1). -/
def negCos (a : Int) : Bool := decide (16384 ≤ absI a)

/-- The vector after the `N` iterations, from `(1, 0)` in Q3.29 and the reduced angle (R102 steps 2, 3). -/
def rotated (n : Nat) (a : Int) : CordicVec := rotate ⟨2 ^ 29, 0, reducedAngle a⟩ n

/-- Step 4 (R102): one multiplication by the reciprocal gain and the narrowing to Q1.15. -/
def narrowQ15 (c : Cfg) (v : Int) : Int := rshiftRound c.rounding (v * invK30 c.cordicN) 44

/-- `v`, negated when `neg`. -/
def negateIf (neg : Bool) (v : Int) : Int := if neg then -v else v

/-- The sine of the signed angle `a` in Q1.15 (R102). -/
def sinQ15 (c : Cfg) (a : Int) : Int :=
  clamp (negateIf (negSin a) (narrowQ15 c (rotated c.cordicN a).y)) (-32768) 32767

/-- The cosine of the signed angle `a` in Q1.15 (R102). -/
def cosQ15 (c : Cfg) (a : Int) : Int :=
  clamp (negateIf (negCos a) (narrowQ15 c (rotated c.cordicN a).x)) (-32768) 32767

/-- SINCOS (R102). -/
def execSincos (s : State) : Result :=
  answer (respond (sext64 (sinQ15 s.cfg (readI16 s.host.opA))) (sext64 (cosQ15 s.cfg (readI16 s.host.opA))) {}) s

/-- Iteration `i` of vectoring mode (R105); `z` is the accumulated angle; `y = 0` counts as non-negative. -/
def vectorStep (i : Nat) (v : CordicVec) : CordicVec :=
  if 0 ≤ v.y then ⟨v.x + asr v.y i, v.y - asr v.x i, v.z + atan16 i⟩
  else ⟨v.x - asr v.y i, v.y + asr v.x i, v.z - atan16 i⟩

/-- Iterations `0 .. n-1` of vectoring mode. -/
def vectorLoop (v : CordicVec) : Nat → CordicVec
  | 0 => v
  | n + 1 => vectorStep n (vectorLoop v n)

/-- The vector before normalising: `y` made positive, then the basis swap when `x < 0` (R105). -/
def foldVector (y x : Int) : CordicVec :=
  let y' := absI y
  if x < 0 then ⟨y', -x, 16384⟩ else ⟨x, y', 0⟩

/-- The pre-normalising shift `sh` (R105, D28): the larger component comes into `[2^29, 2^30)`. -/
def normShift (v : CordicVec) : Nat :=
  if msb32 (max v.x v.y).toNat < 29 then 29 - msb32 (max v.x v.y).toNat else 0

/-- The vector after pre-normalisation and the `N` iterations (R105). -/
def vectored (n : Nat) (v : CordicVec) : CordicVec :=
  vectorLoop ⟨shl v.x (normShift v), shl v.y (normShift v), v.z⟩ n

/-- An angle and a magnitude. -/
structure Polar where
  angle : Int
  mag   : Int
deriving DecidableEq, Repr

/-- ATAN2M off the axes (R105, the last branch). -/
def polarOff (c : Cfg) (y x : Int) : Polar :=
  let v := vectored c.cordicN (foldVector y x)
  ⟨negateIf (decide (y < 0)) v.z, rshiftRound c.rounding (v.x * invK30 c.cordicN) (30 + normShift (foldVector y x))⟩

/-- ATAN2M (R105): the axis cases directly, the rest by iteration. -/
def polarOf (c : Cfg) (y x : Int) : Polar :=
  if x = 0 ∧ y = 0 then ⟨0, 0⟩
  else if y = 0 then ⟨if 0 < x then 0 else 32768, absI x⟩
  else if x = 0 then ⟨if 0 < y then 16384 else -16384, absI y⟩
  else polarOff c y x

/-- The response of ATAN2M: the angle modulo 2^16, sign-extended, and the magnitude (R105). -/
def polarResponse (p : Polar) : Response := respond (sext64 (sintW 16 (uintW 16 p.angle))) (zext64 p.mag) {}

/-- ATAN2M (R105): `A` is `y`, `B` is `x`. -/
def execAtan2m (s : State) : Result :=
  answer (polarResponse (polarOf s.cfg (readI32 s.host.opA) (readI32 s.host.opB))) s

end Sys2Proof.Machine
end

