-- ==== Sys2Proof/Machine/Divider.lean ====
section
/-! DEFINITION. The shift-and-subtract divider: DIV32 by the restoring loop of 44_divider.md R140, and SDIV32 over it (R141). -/

namespace Sys2Proof.Machine

/-- The divider's working values: remainder `r` and quotient `q` (10_state.md R14). -/
structure DivState where
  r : Nat
  q : Nat
deriving DecidableEq, Repr

/-- Iteration `i` of the loop (R140): bring down bit `i` of `a`; where the trial subtraction succeeds, set `q[i]`. -/
def divideStep (a b i : Nat) (d : DivState) : DivState :=
  let r := 2 * d.r + a / 2 ^ i % 2
  if b ≤ r then ⟨r - b, d.q + 2 ^ i⟩ else ⟨r, d.q⟩

/-- The iterations `n-1` downto 0. -/
def divideLoop (a b : Nat) : Nat → DivState → DivState
  | 0, d => d
  | n + 1, d => divideLoop a b n (divideStep a b n d)

/-- The 32 iterations of R140 from `q = r = 0`. -/
def divide32 (a b : Nat) : DivState := divideLoop a b 32 ⟨0, 0⟩

/-- The response of DIV32 (R140). -/
def div32Response (a b : Nat) : Response :=
  if b = 0 then respond (zext64 0xFFFFFFFF) 0 { dz := true } else respond (zext64 (divide32 a b).q) 0 {}

/-- DIV32 (R140). -/
def execDiv32 (s : State) : Result := answer (div32Response (readU32 s.host.opA) (readU32 s.host.opB)) s

/-- The quotient of SDIV32 for `b != 0` (R141): the quotient of the magnitudes, the sign restored. -/
def sdivQuotient (a b : Int) : Int :=
  let q : Int := (divide32 a.natAbs b.natAbs).q
  if decide (a < 0) ≠ decide (b < 0) then -q else q

/-- The response of SDIV32 (R141). -/
def sdiv32Response (s : State) (a b : Int) : Response :=
  if b = 0 then zeroDivisorResponse q16 a else resolvedResponse s q16 (sdivQuotient a b)

/-- SDIV32 (R141). -/
def execSdiv32 (s : State) : Result := answer (sdiv32Response s (readI32 s.host.opA) (readI32 s.host.opB)) s

end Sys2Proof.Machine
end

