-- ==== Sys2Proof/Machine/ExpLog.lean ====
section
/-! DEFINITION. The exponential and the logarithm in Q16.16: EXP16 and LN16 by the reference algorithms (45_explog.md R151, R153;
entry 2), over the constants of 10_state.md R22. -/

namespace Sys2Proof.Machine

/-- `LN2_Q16` (R22). -/
def ln2Q16 : Int := 45426

/-- `INV_LN2_Q16` (R22). -/
def invLn2Q16 : Int := 94548

/-- A Q16.16 product under the rounding policy: the `rr(a · b, 16)` of R151, R153. -/
def mulQ16 (mode : RoundingPolicy) (a b : Int) : Int := rshiftRound mode (a * b) 16

/-- `k`: `x / ln2` rounded to the nearest integer, a tie upward, whatever the rounding policy (R151). -/
def expK (x : Int) : Int := asr (x * invLn2Q16 + 2 ^ 31) 32

/-- The reduced argument `r = x - k·ln2` (R151). -/
def expR (x : Int) : Int := x - expK x * ln2Q16

/-- The polynomial `1 + r + r²/2 + r³/6 + r⁴/24` in Q16.16 (R151). -/
def expPoly (mode : RoundingPolicy) (r : Int) : Int :=
  let r2 := mulQ16 mode r r
  let r3 := mulQ16 mode r2 r
  let r4 := mulQ16 mode r3 r
  65536 + r + tdiv r2 2 + tdiv r3 6 + tdiv r4 24

/-- `p · 2^k` by shifting (R151). -/
def scaleBy (p k : Int) : Int := if 0 ≤ k then shl p k.toNat else asr p (-k).toNat

/-- The response of EXP16 (R151, 60_exceptions.md R173). -/
def expResponse (c : Cfg) (x : Int) : Response :=
  if 15 < expK x then respond (sext64 q16Max) 0 { ro := true }
  else if expK x < -16 then respond 0 0 { ro := true }
  else
    let v := scaleBy (expPoly c.rounding (expR x)) (expK x)
    if q16Max < v then respond (sext64 q16Max) 0 { ro := true } else respond (sext64 v) 0 {}

/-- EXP16 (R151). -/
def execExp16 (s : State) : Result := answer (expResponse s.cfg (readI32 s.host.opA)) s

/-- The exponent `e` of `x > 0`: `x = m · 2^e` (R153). -/
def lnE (x : Int) : Int := (msb32 x.toNat : Int) - 16

/-- The mantissa `m` in Q16.16, in `[65536, 131072)`; the low bits are dropped when `x >= 2.0` (R153). -/
def lnM (x : Int) : Int :=
  if msb32 x.toNat ≤ 16 then shl x (16 - msb32 x.toNat) else asr x (msb32 x.toNat - 16)

/-- `t = (m-1)/(m+1)` in Q16.16, truncated (R153). -/
def lnT (x : Int) : Int := tdiv (shl (lnM x - 65536) 16) (lnM x + 65536)

/-- The three-term series of `artanh(t)` (R153). -/
def artanhSeries (mode : RoundingPolicy) (t : Int) : Int :=
  let t2 := mulQ16 mode t t
  let t3 := mulQ16 mode t2 t
  let t5 := mulQ16 mode t3 t2
  t + tdiv t3 3 + tdiv t5 5

/-- The value of LN16 for `x > 0` (R153). -/
def lnValue (c : Cfg) (x : Int) : Int := 2 * artanhSeries c.rounding (lnT x) + lnE x * ln2Q16

/-- The response of LN16 (R153). -/
def lnResponse (c : Cfg) (x : Int) : Response :=
  if x ≤ 0 then respond (sext64 q16Min) 0 { de := true } else respond (sext64 (lnValue c x)) 0 {}

/-- LN16 (R153). -/
def execLn16 (s : State) : Result := answer (lnResponse s.cfg (readI32 s.host.opA)) s

end Sys2Proof.Machine
end

