-- ==== Sys2Proof/Machine/Newton.lean ====
section
/-! DEFINITION. The Newton–Raphson solvers: RECIP32 (43_newton.md R120), ISQRT16, SQRT16 (R123, R124) and FDIV16 (R125). -/

namespace Sys2Proof.Machine

/-- The value of RECIP32 (R120): the exact floor for `x >= 2`, all ones for 0 and 1. The Newton iteration of R121 is internal
and unobservable (entry 17). -/
def recipValue (x : Nat) : Nat := if x ≤ 1 then 0xFFFFFFFF else 2 ^ 32 / x

/-- RECIP32 (R120). -/
def execRecip32 (s : State) : Result :=
  answer (respond (zext64 (recipValue (readU32 s.host.opA))) 0 { dz := decide (readU32 s.host.opA = 0) }) s

/-- The seed of the inverse square root (R123): `2^(16 - hf)`, `hf` the ceiling of half the exponent. -/
def isqrtSeed (x : Int) : Int :=
  let ex : Int := (msb32 x.toNat : Int) - 16
  2 ^ (16 - asr (ex + 1) 1).toNat

/-- One refinement `y <- y·(3 - x·y²)/2` (R123). -/
def isqrtStep (mode : RoundingPolicy) (x y : Int) : Int :=
  let h := rshiftRound mode (x * y * y) 32
  rshiftRound mode (y * (3 * 2 ^ 16 - h)) 17

/-- `n` refinements. -/
def isqrtIterate (mode : RoundingPolicy) (x y : Int) : Nat → Int
  | 0 => y
  | n + 1 => isqrtStep mode x (isqrtIterate mode x y n)

/-- The inverse square root of `x > 0` in Q16.16 (R123). -/
def isqrtValue (c : Cfg) (x : Int) : Int := isqrtIterate c.rounding x (isqrtSeed x) c.nrIsqrtIters

/-- The response of ISQRT16 (R123). -/
def isqrtResponse (c : Cfg) (x : Int) : Response :=
  if x < 0 then respond (sext64 q16Max) 0 { de := true }
  else if x = 0 then respond (sext64 q16Max) 0 { dz := true }
  else respond (sext64 (isqrtValue c x)) 0 {}

/-- ISQRT16 (R123). -/
def execIsqrt16 (s : State) : Result := answer (isqrtResponse s.cfg (readI32 s.host.opA)) s

/-- The response of SQRT16 (R124): `x` times the inverse square root. -/
def sqrtResponse (c : Cfg) (x : Int) : Response :=
  if x < 0 then respond 0 0 { de := true }
  else if x = 0 then respond 0 0 {}
  else respond (sext64 (rshiftRound c.rounding (x * isqrtValue c x) 16)) 0 {}

/-- SQRT16 (R124). -/
def execSqrt16 (s : State) : Result := answer (sqrtResponse s.cfg (readI32 s.host.opA)) s

/-- The quotient of FDIV16 for `b != 0` (R125): through the reciprocal of the magnitude, the sign restored. -/
def fdivQuotient (mode : RoundingPolicy) (a b : Int) : Int :=
  let q := rshiftRound mode (absI a * recipValue b.natAbs) 16
  if decide (a < 0) ≠ decide (b < 0) then -q else q

/-- The response of FDIV16 (R125). -/
def fdivResponse (s : State) (a b : Int) : Response :=
  if b = 0 then zeroDivisorResponse q16 a else resolvedResponse s q16 (fdivQuotient s.cfg.rounding a b)

/-- FDIV16 (R125). -/
def execFdiv16 (s : State) : Result := answer (fdivResponse s (readI32 s.host.opA) (readI32 s.host.opB)) s

end Sys2Proof.Machine
end

