-- ==== Sys2Proof/Machine/QFormat.lean ====
section
/-! DEFINITION. The Q-format arithmetic unit (41_qformat.md R80 to R92), the format descriptors (10_state.md R16) and the per-format
constants (R23). -/

namespace Sys2Proof.Machine

/-- QADD (R81). -/
def execQadd (fmt : Nat) (s : State) : Result :=
  inFormat fmt s fun f => resolvedResponse s f (operand f s.host.opA + operand f s.host.opB)

/-- QSUB (R82). -/
def execQsub (fmt : Nat) (s : State) : Result :=
  inFormat fmt s fun f => resolvedResponse s f (operand f s.host.opA - operand f s.host.opB)

/-- QMUL (R83): the exact product, rescaled by `F` under the rounding policy, then resolved. -/
def execQmul (fmt : Nat) (s : State) : Result :=
  inFormat fmt s fun f =>
    resolvedResponse s f (rshiftRound s.cfg.rounding (operand f s.host.opA * operand f s.host.opB) f.frac)

/-- The response of QDIV (R84). -/
def qdivResponse (s : State) (f : Format) (a b : Int) : Response :=
  if b = 0 then zeroDivisorResponse f a else resolvedResponse s f (tdiv (shl a f.frac) b)

/-- QDIV (R84). -/
def execQdiv (fmt : Nat) (s : State) : Result :=
  inFormat fmt s fun f => qdivResponse s f (operand f s.host.opA) (operand f s.host.opB)

/-- QABS (R85). -/
def execQabs (fmt : Nat) (s : State) : Result :=
  inFormat fmt s fun f => resolvedResponse s f (absI (operand f s.host.opA))

/-- QNEG (R86). -/
def execQneg (fmt : Nat) (s : State) : Result :=
  inFormat fmt s fun f => resolvedResponse s f (-operand f s.host.opA)

/-- The raw value of `one()` (R87): `2^F`, clamped to the format. -/
def oneOf (f : Format) : Int := clampTo f (2 ^ f.frac)

/-- QONE (R87). -/
def execQone (fmt : Nat) (s : State) : Result :=
  inFormat fmt s fun f => respond (put f (oneOf f)) 0 {}

/-- The raw value of `half()` (R88). -/
def halfOf (f : Format) : Int := if 1 ≤ f.frac then 2 ^ (f.frac - 1) else 0

/-- QHALF (R88). -/
def execQhalf (fmt : Nat) (s : State) : Result :=
  inFormat fmt s fun f => respond (put f (halfOf f)) 0 {}

/-- QFROMINT (R89). -/
def execQfromint (fmt : Nat) (s : State) : Result :=
  inFormat fmt s fun f => resolvedResponse s f (shl (readI64 s.host.opA) f.frac)

/-- QTOINT (R90): rounded by `TOINT_MODE`, not by the rounding policy. -/
def execQtoint (fmt : Nat) (s : State) : Result :=
  inFormat fmt s fun f => respond (sext64 (rshiftRound s.cfg.toIntMode (operand f s.host.opA) f.frac)) 0 {}

/-- The `FormatDescriptor` of an entry of `CFG.FORMATS`, less its text label (10_state.md R16; 00_scope.md R5). -/
structure FormatDescriptor where
  totalBits   : Nat
  integerBits : Nat
  fracBits    : Nat
  isSigned    : Bool
  minValue    : Rat
  maxValue    : Rat
  resolution  : Rat
deriving DecidableEq, Repr

/-- The descriptor of a format (R16), as exact rationals (91_not_in_source.md N8). No operation returns it. -/
def descriptorOf (f : Format) : FormatDescriptor where
  totalBits   := f.width
  integerBits := f.width - f.frac
  fracBits    := f.frac
  isSigned    := f.sign == .signed
  minValue    := mkRat (fmtMin f) (2 ^ f.frac)
  maxValue    := mkRat (fmtMax f) (2 ^ f.frac)
  resolution  := mkRat 1 (2 ^ f.frac)

/-- The four per-format constants (R23). -/
inductive MathConstant where
  | pi
  | e
  | sqrt2
  | ln2
deriving DecidableEq, Repr

/-- `floor(c · 2^96)`. PRESUMED: the digits are general knowledge, as R23 itself marks its own (entry 11). -/
def scaledConstant : MathConstant → Int
  | .pi => 0x3243f6a8885a308d313198a2e
  | .e => 0x2b7e151628aed2a6abf715880
  | .sqrt2 => 0x16a09e667f3bcc908b2fb1366
  | .ln2 => 0xb17217f7d1cf79abc9e3b398

/-- The raw value of a constant in a format (R23): nearest integer to `c · 2^F`, clamped. No operation returns it. -/
def constantOf (f : Format) (c : MathConstant) : Int :=
  clampTo f (asr (shl (scaledConstant c) f.frac + 2 ^ 95) 96)

end Sys2Proof.Machine
end

