-- ==== Sys2Proof/Machine/Saturate.lean ====
section
/-! DEFINITION. The saturate-and-round unit: SATADD, SATSUB, RSHR, NARROW (40_saturate_round.md R65 to R68). -/

namespace Sys2Proof.Machine

/-- SATADD (R65). -/
def execSatadd (fmt : Nat) (s : State) : Result :=
  inFormat fmt s fun f => clampedResponse f (operand f s.host.opA + operand f s.host.opB)

/-- SATSUB (R66). -/
def execSatsub (fmt : Nat) (s : State) : Result :=
  inFormat fmt s fun f => clampedResponse f (operand f s.host.opA - operand f s.host.opB)

/-- RSHR (R67). -/
def execRshr (s : State) : Result :=
  answer (respond (sext64 (rshiftRound s.cfg.rounding (readI64 s.host.opA) (readSh6 s.host.opB))) 0 {}) s

/-- NARROW (R68). -/
def execNarrow (fmt : Nat) (s : State) : Result :=
  inFormat fmt s fun f => resolvedResponse s f (readI64 s.host.opA)

end Sys2Proof.Machine
end

