-- ==== Sys2Proof/Machine/Dispatch.lean ====
section
/-! DEFINITION. One arm per operation: the meaning it calls (30_encoding.md R47, last column). -/

namespace Sys2Proof.Machine

def exec (i : Instr) (s : State) : Host.Outcome State Fault Refusal :=
  match i with
  | .qadd fmt => Sys2Proof.Machine.execQadd fmt s
  | .qsub fmt => Sys2Proof.Machine.execQsub fmt s
  | .qmul fmt => Sys2Proof.Machine.execQmul fmt s
  | .qdiv fmt => Sys2Proof.Machine.execQdiv fmt s
  | .qabs fmt => Sys2Proof.Machine.execQabs fmt s
  | .qneg fmt => Sys2Proof.Machine.execQneg fmt s
  | .qone fmt => Sys2Proof.Machine.execQone fmt s
  | .qhalf fmt => Sys2Proof.Machine.execQhalf fmt s
  | .qfromint fmt => Sys2Proof.Machine.execQfromint fmt s
  | .qtoint fmt => Sys2Proof.Machine.execQtoint fmt s
  | .satadd fmt => Sys2Proof.Machine.execSatadd fmt s
  | .satsub fmt => Sys2Proof.Machine.execSatsub fmt s
  | .rshr => Sys2Proof.Machine.execRshr s
  | .narrow fmt => Sys2Proof.Machine.execNarrow fmt s
  | .sincos => Sys2Proof.Machine.execSincos s
  | .atan2m => Sys2Proof.Machine.execAtan2m s
  | .recip32 => Sys2Proof.Machine.execRecip32 s
  | .isqrt16 => Sys2Proof.Machine.execIsqrt16 s
  | .sqrt16 => Sys2Proof.Machine.execSqrt16 s
  | .fdiv16 => Sys2Proof.Machine.execFdiv16 s
  | .div32 => Sys2Proof.Machine.execDiv32 s
  | .sdiv32 => Sys2Proof.Machine.execSdiv32 s
  | .exp16 => Sys2Proof.Machine.execExp16 s
  | .ln16 => Sys2Proof.Machine.execLn16 s

end Sys2Proof.Machine
end

