-- ==== Sys2Proof/Machine/Handshake.lean ====
section
/-! DEFINITION. One transition of the handshake (70_reset_and_hazards.md R190, R194): reset, take, accept, or wait. -/

namespace Sys2Proof.Machine

/-- `accept(CMD, A, B)` (R194.1, R194.2): the command word is decoded and the operation's response becomes the pending
transaction; an illegal command gets its own response (30_encoding.md R49, R54). -/
def acceptRequest (s : State) : Result :=
  match decode s.host.cmd with
  | .ok i => exec i s
  | .error _ => answer illegalResponse s

/-- What CORE does in one step at the levels the host drives: in reset, drop the transaction (R190, R197); with a response pending,
hand it over when the host is ready (R194.3), else hold it (R194.5); with none pending, accept a request that is offered (R194.1). -/
def react (s : State) : Result :=
  if s.host.resetIn then resetEvent s
  else match s.pending with
    | some r => if s.host.rspReady then takeResponse r s else waitEvent s
    | none => if s.host.reqValid then acceptRequest s else waitEvent s

/-- One step of an instance that exists (93_implementation_defined.md U12), and then the host's next levels. -/
def cycle (s : State) : Result :=
  if s.cfg.wf then afterStep (react s) else .refused .noSuchInstance

/-- The request `cmd` is offered at this step: nothing pending, reset released, `req_valid` high; operands as they stand. -/
def offerCommand (s : State) (cmd : Command) : State :=
  { s with pending := none, host := { s.host with resetIn := false, reqValid := true, cmd := cmd } }

end Sys2Proof.Machine
end

