-- ==== Sys2Proof/Machine/Step.lean ====
section
/-! DEFINITION. The step of the machine, and the state in which a given command is the one the next step runs. -/

namespace Sys2Proof.Machine

/-- One step of the machine (70_reset_and_hazards.md R194). -/
def step (s : State) : Host.Outcome State Fault Refusal := cycle s

/-- `s` with the command `w` (its low `nbits` bits) offered on the request port, so that the next step accepts and runs exactly
it. CORE fetches nothing (10_state.md R11): commands arrive with the host's requests (20_memory.md R39; entry 10). -/
def State.withFetchWord (s : State) (nbits w : Nat) : State := offerCommand s (BitVec.ofNat 32 (w % 2 ^ nbits))

end Sys2Proof.Machine
end

