-- ==== Sys2Proof/Safety.lean ====
section
/-! DEFINITION. What claims about runs are stated in: the legal responses (60_exceptions.md R175, R176, R178; 30_encoding.md R45, R46),
the machine's invariant, and a host's sticky record of traps (10_state.md R12). -/

namespace Sys2Proof.Machine

/-- The `STATUS` values of R175. -/
def legalStatuses : List StatusWord := [0x00, 0x01, 0x02, 0x04, 0x08, 0x18, 0x20]

/-- A response an instance with configuration `c` can give: its `STATUS` is one of R175, an `ILL` response has zero words (R45), and
`TRAP` comes under the `trap` policy only (R176). -/
def Response.legal (c : Cfg) (r : Response) : Bool :=
  legalStatuses.contains r.status &&
  (!hasIll r || (r.r0 == 0 && r.r1 == 0)) &&
  (!hasTrap r || c.overflow == .trap)

/-- The machine's invariant: a legal configuration, and every response pending or taken is a legal one. -/
def State.inv (s : State) : Bool :=
  s.cfg.wf && s.pending.all (Response.legal s.cfg) && s.responses.all (Response.legal s.cfg)

/-- The host has taken a trapped response: the sticky fault bit a model keeps on the host side (10_state.md R12, 60 R176). -/
def State.trapTaken (s : State) : Bool := s.responses.any hasTrap

/-- Responses handed over or waiting: one for each request accepted (30_encoding.md R43). -/
def State.answered (s : State) : Nat := s.responses.length + (if s.pending.isSome then 1 else 0)

/-- Runs never end: the host goes on after every response. -/
def State.hostGoesOn (s : State) : Bool := !s.stopOnTrap && !s.stopOnIll

end Sys2Proof.Machine
end

