-- ==== Sys2Proof/Certificates/Slice0/Obligations.lean ====
section
/-! DEFINITION. The statements about CORE, each a proposition named Obligations.X, and the few words they share. The
statements read operands with the core library's BitVec readings, not with the model's own. -/

open Sys2Proof Sys2Proof.Machine

namespace Sys2Proof.Claims

/-- The raw value of a Q-format word: its low `W` bits, two's complement when signed (10_state.md R15). -/
def rawOf (f : Format) (x : Word) : Int :=
  match f.sign with
  | .signed => (x.setWidth f.width).toInt
  | .unsigned => (x.setWidth f.width).toNat

/-- The signed value of the low 64, 32 and 16 bits of an operand word, and the unsigned value of its low 32. -/
def i64 (x : Word) : Int := x.toInt
def i32 (x : Word) : Int := (x.setWidth 32).toInt
def i16 (x : Word) : Int := (x.setWidth 16).toInt
def u32 (x : Word) : Nat := (x.setWidth 32).toNat

/-- The range of a format (40_saturate_round.md R60). -/
def lowest (f : Format) : Int :=
  match f.sign with
  | .signed => -(2 ^ (f.width - 1))
  | .unsigned => 0

def highest (f : Format) : Int :=
  match f.sign with
  | .signed => 2 ^ (f.width - 1) - 1
  | .unsigned => 2 ^ f.width - 1

/-- The 64-bit word of a value: its two's complement pattern. -/
def wordOf (v : Int) : Word := BitVec.ofInt 64 v

/-- The 32-bit signed format of the Newton and divider results. -/
def signed32 : Format := ⟨32, 16, .signed⟩

/-- `o` is the next state in which this response is pending and nothing else has changed. -/
def Answers (o : Host.Outcome State Fault Refusal) (s : State) (r0 r1 : Word) (status : StatusWord) : Prop :=
  o = .next { s with pending := some ⟨r0, r1, status⟩ }

/-- `o` answers with the exact result `v` brought into the format by `CFG.OVERFLOW_POLICY` (40 R63, 60 R174, R176): unchanged and
without a flag in range; else the value modulo `2^W` (wrap) or the nearer extreme (saturate) with `FO`, or `FO` and `TRAP` with
some result words. -/
def FollowsPolicy (s : State) (f : Format) (v : Int) (o : Host.Outcome State Fault Refusal) : Prop :=
  (lowest f ≤ v → v ≤ highest f → Answers o s (wordOf v) 0 0x00) ∧
  (v < lowest f ∨ highest f < v → s.cfg.overflow = .wrap →
    ∃ r : Int, lowest f ≤ r ∧ r ≤ highest f ∧ (2 : Int) ^ f.width ∣ v - r ∧ Answers o s (wordOf r) 0 0x08) ∧
  (v < lowest f → s.cfg.overflow = .saturate → Answers o s (wordOf (lowest f)) 0 0x08) ∧
  (highest f < v → s.cfg.overflow = .saturate → Answers o s (wordOf (highest f)) 0 0x08) ∧
  (v < lowest f ∨ highest f < v → s.cfg.overflow = .trap → ∃ r0 r1 : Word, Answers o s r0 r1 0x18)

/-- `o` answers with `v` clamped to the format, `FO` when it was clamped, under every policy. -/
def Saturates (s : State) (f : Format) (v : Int) (o : Host.Outcome State Fault Refusal) : Prop :=
  (lowest f ≤ v → v ≤ highest f → Answers o s (wordOf v) 0 0x00) ∧
  (v < lowest f → Answers o s (wordOf (lowest f)) 0 0x08) ∧
  (highest f < v → Answers o s (wordOf (highest f)) 0 0x08)

/-- An operation in a format: opcode `op`, any 4-bit `fmt` (30 R41, R47). -/
def FormatOpcode (op : Nat) (mk : Nat → Instr) : Prop :=
  ∀ fmt < 16, decode (BitVec.ofNat 32 (fmt * 256 + op)) = .ok (mk fmt)

/-- An operation without a format: opcode `op`, `fmt` 0; any other `fmt` is rejected (30 R47, R48). -/
def PlainOpcode (op : Nat) (i : Instr) : Prop :=
  decode (BitVec.ofNat 32 op) = .ok i ∧
  ∀ fmt, 0 < fmt → fmt < 16 → ∃ e, decode (BitVec.ofNat 32 (fmt * 256 + op)) = .error e

/-- The opcodes whose `fmt` selects a format, and those whose `fmt` must be 0 (30 R47). -/
def formatOpcodes : List Nat := [0x01, 0x02, 0x03, 0x04, 0x05, 0x06, 0x07, 0x08, 0x09, 0x0A, 0x10, 0x11, 0x13]
def plainOpcodes : List Nat := [0x12, 0x20, 0x21, 0x30, 0x31, 0x32, 0x33, 0x40, 0x41, 0x50, 0x51]

/-- The exact rounding of `v / 2^s` to an integer, in the words of 40 R62. -/
def roundedQuotient (mode : RoundingPolicy) (v : Int) (s : Nat) : Int :=
  match mode with
  | .floor => ⌊(v : ℚ) / 2 ^ s⌋
  | .ceil => ⌈(v : ℚ) / 2 ^ s⌉
  | .truncate => if 0 ≤ v then ⌊(v : ℚ) / 2 ^ s⌋ else ⌈(v : ℚ) / 2 ^ s⌉
  | .nearest => ⌊(v : ℚ) / 2 ^ s + 1 / 2⌋

/-- The `STATUS` values of an operation under a configuration (60_exceptions.md R175). -/
def resolveStatuses (c : Cfg) : List StatusWord := if c.overflow = .trap then [0x00, 0x18] else [0x00, 0x08]

def statusesOf (c : Cfg) : Instr → List StatusWord
  | .qadd _ => resolveStatuses c
  | .qsub _ => resolveStatuses c
  | .qmul _ => resolveStatuses c
  | .qabs _ => resolveStatuses c
  | .qneg _ => resolveStatuses c
  | .qfromint _ => resolveStatuses c
  | .narrow _ => resolveStatuses c
  | .qdiv _ => 0x01 :: resolveStatuses c
  | .fdiv16 => 0x01 :: resolveStatuses c
  | .sdiv32 => 0x01 :: resolveStatuses c
  | .satadd _ => [0x00, 0x08]
  | .satsub _ => [0x00, 0x08]
  | .qone _ => [0x00]
  | .qhalf _ => [0x00]
  | .qtoint _ => [0x00]
  | .rshr => [0x00]
  | .sincos => [0x00]
  | .atan2m => [0x00]
  | .div32 => [0x00, 0x01]
  | .recip32 => [0x00, 0x01]
  | .isqrt16 => [0x00, 0x01, 0x02]
  | .sqrt16 => [0x00, 0x02]
  | .ln16 => [0x00, 0x02]
  | .exp16 => [0x00, 0x04]

/-- How many low bits of `A` and of `B` an operation reads (30 R42, R47); `w` is the width of its format. -/
def bitsRead (w : Nat) : Instr → Nat × Nat
  | .qadd _ => (w, w)
  | .qsub _ => (w, w)
  | .qmul _ => (w, w)
  | .qdiv _ => (w, w)
  | .qabs _ => (w, 0)
  | .qneg _ => (w, 0)
  | .qone _ => (0, 0)
  | .qhalf _ => (0, 0)
  | .qfromint _ => (64, 0)
  | .qtoint _ => (w, 0)
  | .satadd _ => (w, w)
  | .satsub _ => (w, w)
  | .rshr => (64, 6)
  | .narrow _ => (64, 0)
  | .sincos => (16, 0)
  | .atan2m => (32, 32)
  | .recip32 => (32, 0)
  | .isqrt16 => (32, 0)
  | .sqrt16 => (32, 0)
  | .fdiv16 => (32, 32)
  | .div32 => (32, 32)
  | .sdiv32 => (32, 32)
  | .exp16 => (32, 0)
  | .ln16 => (32, 0)

/-- The width of the format an operation works in; 0 where it takes none or `fmt` names none. -/
def widthOf (c : Cfg) (i : Instr) : Nat :=
  match i.fmt? with
  | some n => ((c.formats[n]?).map Format.width).getD 0
  | none => 0

/-- The magnitude divided into `2^32` by RECIP32's rule (43_newton.md R120): exact floor from 2 up, all ones at 1. -/
def IsReciprocal (x rc : Nat) : Prop :=
  (x = 1 → rc = 0xFFFFFFFF) ∧ (2 ≤ x → rc * x ≤ 2 ^ 32 ∧ 2 ^ 32 < (rc + 1) * x)

/-- `1.0` has a raw value in the format (41_qformat.md R91). -/
def OneFits (f : Format) : Prop :=
  match f.sign with
  | .signed => f.frac + 2 ≤ f.width
  | .unsigned => f.frac + 1 ≤ f.width

/-- The operands of a state replaced. -/
def withOperands (s : State) (a b : Word) : State := { s with host := { s.host with opA := a, opB := b } }

end Sys2Proof.Claims

open Sys2Proof.Claims

/-! ### Encoding -/

/-- Decoding the encoding of a well-formed command gives it back (30_encoding.md R41, R47, R52). -/
def Obligations.DecodeOfEncodeIsTheInstruction : Prop :=
  ∀ i : Instr, i.wellFormed = true → decode (encode i) = .ok i

/-- Each command word that decodes is the encoding of what it decodes to, which is well formed: no bit is dropped. -/
def Obligations.EncodeOfDecodeIsTheCommand : Prop :=
  ∀ (cmd : Command) (i : Instr), decode cmd = .ok i → encode i = cmd ∧ i.wellFormed = true

/-- A command is legal exactly when bits 31:12 are 0, the opcode is one of the 24, and `fmt` obeys R48 (30 R47, R48). -/
def Obligations.LegalCommandsAreThoseOfTheTable : Prop :=
  ∀ (c : Cfg) (cmd : Command),
    legalCommand c cmd = true ↔
      cmd.extractLsb' 12 20 = 0#20 ∧
      (((cmd.extractLsb' 0 8).toNat ∈ formatOpcodes ∧ (cmd.extractLsb' 8 4).toNat < c.formats.length) ∨
       ((cmd.extractLsb' 0 8).toNat ∈ plainOpcodes ∧ cmd.extractLsb' 8 4 = 0#4))

/-- Words written out from the encodings of 95_test_vectors.md section 5, two of a family. -/
def Obligations.WrittenOutWordsDecode : Prop :=
  decode 0b00000000000000000000000000000001 = .ok (.qadd 0) ∧
  decode 0b00000000000000000000011100000100 = .ok (.qdiv 7) ∧
  decode 0b00000000000000000000001100010001 = .ok (.satsub 3) ∧
  decode 0b00000000000000000000000000010010 = .ok .rshr ∧
  decode 0b00000000000000000000000000100000 = .ok .sincos ∧
  decode 0b00000000000000000000000000100001 = .ok .atan2m ∧
  decode 0b00000000000000000000000000110000 = .ok .recip32 ∧
  decode 0b00000000000000000000000000110011 = .ok .fdiv16 ∧
  decode 0b00000000000000000000000001000000 = .ok .div32 ∧
  decode 0b00000000000000000000000001000001 = .ok .sdiv32 ∧
  decode 0b00000000000000000000000001010000 = .ok .exp16 ∧
  decode 0b00000000000000000000000001010001 = .ok .ln16

/-- 232 of the 256 opcode values, 0x00 among them, and every word with a bit of 31:12 set are illegal (30 R50). -/
def Obligations.ReservedEncodingsAreIllegal : Prop :=
  ((List.range 256).filter (fun op => !(formatOpcodes ++ plainOpcodes).contains op)).length = 232 ∧
  (∀ (c : Cfg) (cmd : Command),
    (cmd.extractLsb' 0 8).toNat ∉ formatOpcodes ++ plainOpcodes ∨ cmd.extractLsb' 12 20 ≠ 0#20 →
      legalCommand c cmd = false) ∧
  ∀ c : Cfg, legalCommand c 0 = false

/-- An illegal command that is accepted gets `R0 = R1 = 0` and `ILL` alone, and nothing else changes (30 R49) but the host's own next
levels. The model's choice, not R49's: taking that response refuses the run of a host that stops on illegal commands, and
otherwise the run goes on (entry 5); how the host's levels move on (`advance`, entry 6) and that it keeps the response (entry 18). -/
def Obligations.IllegalCommandsAnswerIllAndNothingElse : Prop :=
  (∀ s : State, s.cfg.wf = true → s.host.resetIn = false → s.pending = none → s.host.reqValid = true →
    legalCommand s.cfg s.host.cmd = false → step s = .next (advance { s with pending := some ⟨0, 0, 0x20⟩ })) ∧
  (∀ s : State, s.cfg.wf = true → s.host.resetIn = false → s.pending = some ⟨0, 0, 0x20⟩ → s.host.rspReady = true →
    (s.stopOnIll = true → step s = .refused .illegalCommand) ∧
    (s.stopOnIll = false →
      step s = .next (advance { s with pending := none, responses := s.responses ++ [⟨0, 0, 0x20⟩] })))

/-! ### A step -/

/-- When the command offered decodes to `i` and CORE is ready, the step is `exec i` (70 R194; 20 R39 "decoded afresh each time"), and
then the host's levels move on. How they move on is the model's choice (entry 6): to the next of the script, or, after its end, to
none driven; nothing else that the step leaves is touched. -/
def Obligations.StepRunsTheDecodedInstruction : Prop :=
  (∀ (s t : State) (i : Instr), s.cfg.wf = true → s.host.resetIn = false → s.pending = none → s.host.reqValid = true →
    decode s.host.cmd = .ok i → exec i s = .next t → step s = .next (advance t)) ∧
  (∀ t : State,
    (advance t).cfg = t.cfg ∧ (advance t).pending = t.pending ∧ (advance t).responses = t.responses ∧
    (advance t).stopOnTrap = t.stopOnTrap ∧ (advance t).stopOnIll = t.stopOnIll ∧
    (t.script = [] → (advance t).script = [] ∧ (advance t).host.resetIn = false ∧
      (advance t).host.reqValid = false ∧ (advance t).host.rspReady = false) ∧
    ∀ h rest, t.script = h :: rest → (advance t).host = h ∧ (advance t).script = rest)

/-- The response is a function of the command word, the operands and `CFG`, and of nothing else (00_scope.md R7): two states that
agree on these answer alike, whatever else they hold; so every operation answers, on every state. -/
def Obligations.ResponseDependsOnRequestAndConfigurationOnly : Prop :=
  ∀ (i : Instr) (s t : State), s.cfg = t.cfg → s.host.cmd = t.host.cmd → s.host.opA = t.host.opA → s.host.opB = t.host.opB →
    ∃ r : Response, exec i s = .next { s with pending := some r } ∧ exec i t = .next { t with pending := some r }

/-- The frame of all 24 operations: each answers a next state in which only `pending` has changed (10_state.md R12, R13, R24). -/
def Obligations.OperationsLeaveAllButPendingUnchanged : Prop :=
  ∀ (i : Instr) (s : State), ∃ t : State, exec i s = .next t ∧ t.pending.isSome = true ∧
    t.cfg = s.cfg ∧ t.host = s.host ∧ t.script = s.script ∧ t.responses = s.responses ∧
    t.stopOnTrap = s.stopOnTrap ∧ t.stopOnIll = s.stopOnIll ∧ t.draws = s.draws

/-- Operand bits above the ones an operation reads are ignored (30 R42, 93 U14): the status is the same, and the result words are,
unless the operation traps, where they are unspecified. -/
def Obligations.OperandBitsAboveTheWidthAreIgnored : Prop :=
  ∀ (i : Instr) (s : State) (a b : Word),
    s.host.opA.toNat % 2 ^ (bitsRead (widthOf s.cfg i) i).1 = a.toNat % 2 ^ (bitsRead (widthOf s.cfg i) i).1 →
    s.host.opB.toNat % 2 ^ (bitsRead (widthOf s.cfg i) i).2 = b.toNat % 2 ^ (bitsRead (widthOf s.cfg i) i).2 →
    ∃ r q : Response, exec i s = .next { s with pending := some r } ∧
      exec i (withOperands s a b) = .next { withOperands s a b with pending := some q } ∧
      r.status = q.status ∧ (hasTrap r = false → r = q)

/-- The reciprocal's iteration count cannot be observed (00 R6, 43_newton.md R120, R126): the status is the same, and the result words
are, unless the operation traps, where they are unspecified (60 R176) and the model leaves them free under each configuration
(entry 3). -/
def Obligations.ReciprocalIterationCountIsUnobservable : Prop :=
  ∀ (i : Instr) (s : State) (n : Nat),
    ∃ r q : Response, exec i s = .next { s with pending := some r } ∧
      exec i { s with cfg := { s.cfg with nrRecipIters := n } } =
        .next { s with cfg := { s.cfg with nrRecipIters := n }, pending := some q } ∧
      r.status = q.status ∧ (hasTrap r = false → r = q)

/-- Every `STATUS` value an operation can return, and `ILL` alone for a `fmt` that names no format (60_exceptions.md R175). -/
def Obligations.StatusValuesAreThoseOfTheTable : Prop :=
  ∀ (i : Instr) (s : State), ∃ r : Response, exec i s = .next { s with pending := some r } ∧
    (i.legal s.cfg = true → r.status ∈ statusesOf s.cfg i) ∧
    (∀ n, i.fmt? = some n → s.cfg.formats.length ≤ n → r = ⟨0, 0, 0x20⟩)

/-- At most one of `DZ`, `DE`, `RO`, `FO` is set in a response, `TRAP` only with `FO`, `ILL` with nothing, bits 7:6 never (60 R178, 30
R46). -/
def Obligations.AtMostOneKindIsReported : Prop :=
  ∀ (i : Instr) (s : State), ∃ r : Response, exec i s = .next { s with pending := some r } ∧
    (hasDz r).toNat + (hasDe r).toNat + (hasRo r).toNat + (hasFo r).toNat + (hasIll r).toNat ≤ 1 ∧
    (hasTrap r = true → hasFo r = true) ∧
    r.status.getLsbD 6 = false ∧ r.status.getLsbD 7 = false

/-- A step keeps the invariant: a legal configuration, and only legal responses pending and taken (60 R175, R176; 30 R45). -/
def Obligations.StepKeepsTheInvariant : Prop :=
  ∀ s t : State, s.inv = true → step s = .next t → t.inv = true

/-- The invariant holds right after reset. The configuration there is the model's choice of `REFCFG` (entry 1). -/
def Obligations.ResetMeetsTheInvariant : Prop := State.reset.inv = true

/-- After reset no response is waiting and none is offered, and the request port is ready to accept (70 R190, 10 R25). The levels the
host drives there are the model's choice (entry 6). -/
def Obligations.ResetHoldsNoTransaction : Prop :=
  State.reset.pending = none ∧ rspValid State.reset = false ∧ reqReady State.reset = true

/-- No step writes the configuration (10 R13). The other clauses are the model's choice of a host side: no step writes what the host
stops on (entries 4, 5), and its record of responses only grows (entry 18). -/
def Obligations.ConfigurationIsNeverWritten : Prop :=
  ∀ s t : State, step s = .next t →
    t.cfg = s.cfg ∧ t.stopOnTrap = s.stopOnTrap ∧ t.stopOnIll = s.stopOnIll ∧ ∃ l, t.responses = s.responses ++ l

/-- While reset is asserted CORE accepts no request and offers no response; the transaction in flight is dropped and never handed
over; the configuration stands (70 R190, R197). -/
def Obligations.AssertedResetDropsTheTransaction : Prop :=
  ∀ s : State, s.cfg.wf = true → s.host.resetIn = true →
    reqReady s = false ∧ rspValid s = false ∧
    ∃ t : State, step s = .next t ∧ t.pending = none ∧ t.responses = s.responses ∧ t.cfg = s.cfg ∧
      (t.host.resetIn = false → reqReady t = true)

/-- The handshake out of reset (70 R194, 10 R24): `req_ready` is high exactly when nothing is pending, `rsp_valid` exactly when a
response is, and the port then shows that response. A request is accepted exactly when it is offered and CORE is ready, and its
response is offered next; a response not taken stays offered with the same payload, whatever else is offered; one taken empties
`pending`, is offered no more, and joins the host's record (entry 18). Where the next levels assert reset nothing is offered (R190),
so what the port shows next is said out of reset. The stops of a host on TRAP and ILL (entries 4, 5) are set aside by the premise on
the response taken. -/
def Obligations.HandshakeFollowsItsRules : Prop :=
  ∀ s : State, s.cfg.wf = true → s.host.resetIn = false →
    (reqReady s = true ↔ s.pending = none) ∧
    (rspValid s = true ↔ ∃ r, s.pending = some r) ∧
    (∀ r, s.pending = some r → rspPayload s = r) ∧
    (s.pending = none → s.host.reqValid = true →
      ∃ (t : State) (r : Response), step s = .next t ∧ t.pending = some r ∧ t.responses = s.responses ∧
        (t.host.resetIn = false → rspValid t = true ∧ rspPayload t = r)) ∧
    (s.pending = none → s.host.reqValid = false →
      ∃ t : State, step s = .next t ∧ t.pending = none ∧ t.responses = s.responses ∧ rspValid t = false) ∧
    (∀ r, s.pending = some r → s.host.rspReady = false →
      ∃ t : State, step s = .next t ∧ t.pending = some r ∧ t.responses = s.responses ∧
        (t.host.resetIn = false → rspValid t = true ∧ rspPayload t = r)) ∧
    (∀ r, s.pending = some r → s.host.rspReady = true → hasTrap r = false → hasIll r = false →
      ∃ t : State, step s = .next t ∧ t.pending = none ∧ t.responses = s.responses ++ [r] ∧ rspValid t = false)

/-- Exactly one response for each accepted request: out of reset a step adds one to the responses handed over or waiting when it
accepts a request, and none otherwise (30 R43). -/
def Obligations.OneResponseForEachAcceptedRequest : Prop :=
  ∀ s t : State, s.host.resetIn = false → step s = .next t →
    t.answered = s.answered + (if reqReady s && s.host.reqValid then 1 else 0)

/-- A trapped response is a fault to a host that stops on traps; to another it is a response like any other, and CORE goes on (60 R176,
R181). When the fault is raised is the model's choice (entry 4): at the step that takes the response, and only where `stopOnTrap`
holds; so are the host's record and its next levels (entries 18, 6). Under `wrap` and `saturate` no operation traps (R176). -/
def Obligations.TrapIsAFaultOfTheHostAlone : Prop :=
  (∀ (s : State) (r : Response), s.cfg.wf = true → s.host.resetIn = false → s.pending = some r → hasTrap r = true →
    s.host.rspReady = true →
    (s.stopOnTrap = true → step s = .fault .trapResponse) ∧
    (s.stopOnTrap = false → hasIll r = false →
      step s = .next (advance { s with pending := none, responses := s.responses ++ [r] }))) ∧
  (∀ (i : Instr) (s : State), ∃ r : Response, exec i s = .next { s with pending := some r } ∧
    (hasTrap r = true → s.cfg.overflow = .trap ∧ r.status = 0x18))

/-- The host's record of a trap is never lost, whatever follows, a reset included (10 R12, 60 R176; entry 18). -/
def Obligations.TrapRecordIsSticky : Prop :=
  ∀ s t : State, s.trapTaken = true → step s = .next t → t.trapTaken = true

/-- With a host that goes on after every response (entries 4, 5), CORE never stops: `k` steps answer a next state, for every `k`, from
every state with a legal configuration (30 R54, 70 R194). -/
def Obligations.HostThatGoesOnIsNeverStopped : Prop :=
  ∀ (s : State), s.cfg.wf = true → s.hostGoesOn = true →
    ∀ k : Nat, ∃ t : State, Sys2Proof.core.run k s = .next t ∧ t.cfg = s.cfg

/-- A configuration outside the legal ranges is no instance of CORE: the step is refused (93_implementation_defined.md U12; that the
step is where it is refused is entry 9). -/
def Obligations.IllFormedConfigurationIsRefused : Prop :=
  ∀ s : State,
    s.cfg.cordicN = 0 ∨ 24 < s.cfg.cordicN ∨ 8 < s.cfg.nrIsqrtIters ∨ s.cfg.formats = [] ∨ 16 < s.cfg.formats.length ∨
      (∃ f ∈ s.cfg.formats, f.width ∉ [8, 16, 32, 64] ∨ f.width < f.frac ∨ (f.sign = .signed ∧ f.width ≤ f.frac)) →
    step s = .refused .noSuchInstance

/-! ### The primitives -/

/-- The rounding shift rounds `v / 2^s` as its mode says; with `s = 0` it is `v` (40 R62). -/
def Obligations.RoundingShiftRoundsByItsMode : Prop :=
  (∀ (mode : RoundingPolicy) (v : Int), rshiftRound mode v 0 = v) ∧
  ∀ (mode : RoundingPolicy) (v : Int) (s : Nat), 1 ≤ s → rshiftRound mode v s = roundedQuotient mode v s

/-- `resolve`: in range unchanged and without `FO`; out of range the value modulo `2^W` in range, the nearer extreme, or TRAP (40
R63). -/
def Obligations.ResolveFollowsThePolicy : Prop :=
  ∀ (f : Format) (v : Int), f.wf = true →
    (∀ p, lowest f ≤ v → v ≤ highest f → resolve f p v = .value v false) ∧
    (v < lowest f ∨ highest f < v →
      (∃ r, resolve f .wrap v = .value r true ∧ lowest f ≤ r ∧ r ≤ highest f ∧ (2 : Int) ^ f.width ∣ v - r) ∧
      resolve f .saturate v = .value (if v < lowest f then lowest f else highest f) true ∧
      resolve f .trap v = .trapped)

/-- A result word sent back as an operand reads as the value it was written from (40 R61, R64). -/
def Obligations.ResultWordReadsBackAsItsValue : Prop :=
  ∀ (f : Format) (v : Int), f.wf = true → lowest f ≤ v → v ≤ highest f → operand f (put f v) = v ∧ put f v = wordOf v

/-! ### The saturate-and-round unit -/

/-- SATADD and SATSUB clamp the exact sum and difference, whatever the overflow policy, with `FO` when clamped (40 R65, R66). -/
def Obligations.SaturatingAddAndSubtractClamp : Prop :=
  FormatOpcode 0x10 .satadd ∧ FormatOpcode 0x11 .satsub ∧
  ∀ (s : State) (fmt : Nat) (f : Format), s.cfg.formats[fmt]? = some f → f.wf = true →
    Saturates s f (rawOf f s.host.opA + rawOf f s.host.opB) (exec (.satadd fmt) s) ∧
    Saturates s f (rawOf f s.host.opA - rawOf f s.host.opB) (exec (.satsub fmt) s)

/-- RSHR: the 64-bit integer shifted by `B[5:0]` under the rounding policy, no flag; the result fits, and from a shift of 1 up its
magnitude is at most `2^62` (40 R67). -/
def Obligations.RshrRoundsAndAlwaysFits : Prop :=
  PlainOpcode 0x12 .rshr ∧
  ∀ s : State, ∃ w : Word, Answers (exec .rshr s) s w 0 0x00 ∧
    w.toInt = rshiftRound s.cfg.rounding (i64 s.host.opA) (s.host.opB.setWidth 6).toNat ∧
    (1 ≤ (s.host.opB.setWidth 6).toNat → w.toInt.natAbs ≤ 2 ^ 62)

/-- NARROW brings the 64-bit integer into the format under the overflow policy (40 R68). -/
def Obligations.NarrowFollowsTheOverflowPolicy : Prop :=
  FormatOpcode 0x13 .narrow ∧
  ∀ (s : State) (fmt : Nat) (f : Format), s.cfg.formats[fmt]? = some f → f.wf = true →
    FollowsPolicy s f (i64 s.host.opA) (exec (.narrow fmt) s)

/-! ### The Q-format unit -/

/-- QADD and QSUB: the exact sum and difference under the overflow policy (41_qformat.md R81, R82). -/
def Obligations.QaddAndQsubFollowTheOverflowPolicy : Prop :=
  FormatOpcode 0x01 .qadd ∧ FormatOpcode 0x02 .qsub ∧
  ∀ (s : State) (fmt : Nat) (f : Format), s.cfg.formats[fmt]? = some f → f.wf = true →
    FollowsPolicy s f (rawOf f s.host.opA + rawOf f s.host.opB) (exec (.qadd fmt) s) ∧
    FollowsPolicy s f (rawOf f s.host.opA - rawOf f s.host.opB) (exec (.qsub fmt) s)

/-- QMUL: the exact product, shifted right by `F` under the rounding policy, under the overflow policy (R83). -/
def Obligations.QmulRescalesTheExactProduct : Prop :=
  FormatOpcode 0x03 .qmul ∧
  ∀ (s : State) (fmt : Nat) (f : Format), s.cfg.formats[fmt]? = some f → f.wf = true →
    FollowsPolicy s f (rshiftRound s.cfg.rounding (rawOf f s.host.opA * rawOf f s.host.opB) f.frac) (exec (.qmul fmt) s)

/-- QDIV: by 0 the extreme with the sign of `a` and `DZ`, whatever the policy; else the quotient of `a · 2^F` by `b` toward zero under
the overflow policy (R84). -/
def Obligations.QdivDividesTowardZero : Prop :=
  FormatOpcode 0x04 .qdiv ∧
  ∀ (s : State) (fmt : Nat) (f : Format), s.cfg.formats[fmt]? = some f → f.wf = true →
    (rawOf f s.host.opB = 0 → rawOf f s.host.opA < 0 → Answers (exec (.qdiv fmt) s) s (wordOf (lowest f)) 0 0x01) ∧
    (rawOf f s.host.opB = 0 → 0 ≤ rawOf f s.host.opA → Answers (exec (.qdiv fmt) s) s (wordOf (highest f)) 0 0x01) ∧
    (rawOf f s.host.opB ≠ 0 →
      FollowsPolicy s f ((rawOf f s.host.opA * 2 ^ f.frac).tdiv (rawOf f s.host.opB)) (exec (.qdiv fmt) s))

/-- QABS and QNEG: the exact absolute value and negative under the overflow policy (R85, R86). -/
def Obligations.QabsAndQnegFollowTheOverflowPolicy : Prop :=
  FormatOpcode 0x05 .qabs ∧ FormatOpcode 0x06 .qneg ∧
  ∀ (s : State) (fmt : Nat) (f : Format), s.cfg.formats[fmt]? = some f → f.wf = true →
    FollowsPolicy s f |rawOf f s.host.opA| (exec (.qabs fmt) s) ∧
    FollowsPolicy s f (-rawOf f s.host.opA) (exec (.qneg fmt) s)

/-- QONE: `2^F`, or the maximum where that does not fit; QHALF: `2^(F-1)`, or 0 where `F = 0`; no flag, whatever the policy (R87,
R88). -/
def Obligations.QoneAndQhalfAreTheConstants : Prop :=
  FormatOpcode 0x07 .qone ∧ FormatOpcode 0x08 .qhalf ∧
  ∀ (s : State) (fmt : Nat) (f : Format), s.cfg.formats[fmt]? = some f → f.wf = true →
    (2 ^ f.frac ≤ highest f → Answers (exec (.qone fmt) s) s (wordOf (2 ^ f.frac)) 0 0x00) ∧
    (highest f < 2 ^ f.frac → Answers (exec (.qone fmt) s) s (wordOf (highest f)) 0 0x00) ∧
    (1 ≤ f.frac → Answers (exec (.qhalf fmt) s) s (wordOf (2 ^ (f.frac - 1))) 0 0x00) ∧
    (f.frac = 0 → Answers (exec (.qhalf fmt) s) s 0 0 0x00)

/-- QFROMINT: the signed 64-bit integer times `2^F` under the overflow policy (R89). -/
def Obligations.QfromintScalesTheInteger : Prop :=
  FormatOpcode 0x09 .qfromint ∧
  ∀ (s : State) (fmt : Nat) (f : Format), s.cfg.formats[fmt]? = some f → f.wf = true →
    FollowsPolicy s f (i64 s.host.opA * 2 ^ f.frac) (exec (.qfromint fmt) s)

/-- QTOINT: the value shifted right by `F` under `TOINT_MODE`, no flag; the result fits the word, read with the format's signedness
(R90). -/
def Obligations.QtointRoundsByToIntMode : Prop :=
  FormatOpcode 0x0A .qtoint ∧
  ∀ (s : State) (fmt : Nat) (f : Format), s.cfg.formats[fmt]? = some f → f.wf = true →
    ∃ w : Word, Answers (exec (.qtoint fmt) s) s w 0 0x00 ∧
      (f.sign = .signed → w.toInt = rshiftRound s.cfg.toIntMode (rawOf f s.host.opA) f.frac) ∧
      (f.sign = .unsigned → (w.toNat : Int) = rshiftRound s.cfg.toIntMode (rawOf f s.host.opA) f.frac)

/-- The laws of the source, for every format in which 1.0 has a raw value, every `x`, every policy: `mul(x, one()) = x`,
`mul(x, 0) = 0`, `div(x, one()) = x`, and `div(x, 0)` is the extreme with the sign of `x`, with no flag but `DZ` on the last (R91). -/
def Obligations.QformatLawsOfOneAndZero : Prop :=
  ∀ (s : State) (fmt : Nat) (f : Format) (x : Word), s.cfg.formats[fmt]? = some f → f.wf = true → OneFits f →
    ∃ one : Word, Answers (exec (.qone fmt) s) s one 0 0x00 ∧
      Answers (exec (.qmul fmt) (withOperands s x one)) (withOperands s x one) (wordOf (rawOf f x)) 0 0x00 ∧
      Answers (exec (.qmul fmt) (withOperands s x 0)) (withOperands s x 0) 0 0 0x00 ∧
      Answers (exec (.qdiv fmt) (withOperands s x one)) (withOperands s x one) (wordOf (rawOf f x)) 0 0x00 ∧
      Answers (exec (.qdiv fmt) (withOperands s x 0)) (withOperands s x 0)
        (wordOf (if rawOf f x < 0 then lowest f else highest f)) 0 0x01

/-! ### CORDIC -/

/-- The tables: the arctangents in brad16 (10_state.md R20) and the reciprocal gain (R21), each entry of which is the nearest integer
to `2^30 / K_N`, `K_N² = ∏ (1 + 4^-i)`: `(2·INV - 1)² · K² ≤ 2^62 < (2·INV + 1)² · K²`. -/
def Obligations.CordicTablesAreThoseOfTheSpec : Prop :=
  (List.range 24).map atan16 =
    [8192, 4836, 2555, 1297, 651, 326, 163, 81, 41, 20, 10, 5, 3, 1, 1, 0, 0, 0, 0, 0, 0, 0, 0, 0] ∧
  ∀ n ∈ List.range 25, 1 ≤ n →
    let p : Int := ((List.range n).map fun i => (4 : Int) ^ i + 1).prod
    let q : Int := ((List.range n).map fun i => (4 : Int) ^ i).prod
    (2 * invK30 n - 1) ^ 2 * p ≤ 2 ^ 62 * q ∧ 2 ^ 62 * q < (2 * invK30 n + 1) ^ 2 * p

/-- SINCOS by the reference algorithm (42_cordic.md R102): the reduced angle, `N` simultaneous rotations from `(1, 0)` in Q3.29, one
multiplication by the reciprocal gain narrowed under the rounding policy, the signs, then the clamp to Q1.15; no flag. -/
def Obligations.SincosRotatesTheReducedAngle : Prop :=
  PlainOpcode 0x20 .sincos ∧
  ∀ s : State,
    let a := i16 s.host.opA
    let n := s.cfg.cordicN
    ∃ x y z : Nat → Int,
      x 0 = 2 ^ 29 ∧ y 0 = 0 ∧ z 0 = (if |a| < 16384 then |a| else 32768 - |a|) ∧
      (∀ i < n,
        (0 ≤ z i → x (i + 1) = x i - y i / 2 ^ i ∧ y (i + 1) = y i + x i / 2 ^ i ∧ z (i + 1) = z i - atan16 i) ∧
        (z i < 0 → x (i + 1) = x i + y i / 2 ^ i ∧ y (i + 1) = y i - x i / 2 ^ i ∧ z (i + 1) = z i + atan16 i)) ∧
      (let sn := rshiftRound s.cfg.rounding (y n * invK30 n) 44
       let cs := rshiftRound s.cfg.rounding (x n * invK30 n) 44
       Answers (exec .sincos s) s
         (wordOf (max (-32768) (min 32767 (if a < 0 then -sn else sn))))
         (wordOf (max (-32768) (min 32767 (if 16384 ≤ |a| then -cs else cs)))) 0x00)

/-- Opposite angles have the same cosine, and opposite sines unless the clamp to Q1.15 bites, where they are the two extremes 32767 and
-32768. The angles 0 and 180° are their own opposites: of 0 only the cosine is said, and 180° has no opposite word. A consequence of
the range reduction and the clamp of R102. -/
def Obligations.SincosOfOppositeAngles : Prop :=
  ∀ (s : State) (a b : Word), i16 a + i16 b = 0 →
    ∃ (sa sb : Int) (c : Word), Answers (exec .sincos (withOperands s a b)) (withOperands s a b) (wordOf sa) c 0x00 ∧
      Answers (exec .sincos (withOperands s b a)) (withOperands s b a) (wordOf sb) c 0x00 ∧
      -32768 ≤ sa ∧ sa ≤ 32767 ∧ -32768 ≤ sb ∧ sb ≤ 32767 ∧
      (i16 a ≠ 0 → sa + sb = 0 ∨ (sa = 32767 ∧ sb = -32768) ∨ (sa = -32768 ∧ sb = 32767))

/-- ATAN2M by the reference algorithm (42_cordic.md R105): the axes directly and exactly; off them the fold of `y` and the basis swap,
the pre-normalising shift, `N` simultaneous rotations, the angle modulo 2^16 and the gain-corrected magnitude; no flag. -/
def Obligations.Atan2mVectorsTheFoldedPair : Prop :=
  PlainOpcode 0x21 .atan2m ∧
  ∀ s : State,
    let y := i32 s.host.opA
    let x := i32 s.host.opB
    let n := s.cfg.cordicN
    (x = 0 → y = 0 → Answers (exec .atan2m s) s 0 0 0x00) ∧
    (y = 0 → 0 < x → Answers (exec .atan2m s) s 0 (wordOf x) 0x00) ∧
    (y = 0 → x < 0 → Answers (exec .atan2m s) s (wordOf (-32768)) (wordOf (-x)) 0x00) ∧
    (x = 0 → 0 < y → Answers (exec .atan2m s) s (wordOf 16384) (wordOf y) 0x00) ∧
    (x = 0 → y < 0 → Answers (exec .atan2m s) s (wordOf (-16384)) (wordOf (-y)) 0x00) ∧
    (x ≠ 0 → y ≠ 0 →
      ∃ (p : Nat) (u v z : Nat → Int),
        let u0 := if x < 0 then |y| else x
        let v0 := if x < 0 then -x else |y|
        2 ^ p ≤ max u0 v0 ∧ max u0 v0 < 2 ^ (p + 1) ∧
        u 0 = u0 * 2 ^ (29 - p) ∧ v 0 = v0 * 2 ^ (29 - p) ∧ z 0 = (if x < 0 then 16384 else 0) ∧
        (∀ i < n,
          (0 ≤ v i → u (i + 1) = u i + v i / 2 ^ i ∧ v (i + 1) = v i - u i / 2 ^ i ∧ z (i + 1) = z i + atan16 i) ∧
          (v i < 0 → u (i + 1) = u i - v i / 2 ^ i ∧ v (i + 1) = v i + u i / 2 ^ i ∧ z (i + 1) = z i - atan16 i)) ∧
        Answers (exec .atan2m s) s
          (wordOf (BitVec.ofInt 16 (if y < 0 then -z n else z n)).toInt)
          (wordOf (rshiftRound s.cfg.rounding (u n * invK30 n) (30 + (29 - p)))) 0x00)

/-- Mirroring a vector in the x axis negates its angle modulo 2^16 and keeps its magnitude. A consequence of the fold of R105. -/
def Obligations.Atan2mOfAMirroredVector : Prop :=
  ∀ (s : State) (y y' x : Word), i32 y + i32 y' = 0 →
    ∃ (t t' : Brad16) (m : Word),
      Answers (exec .atan2m (withOperands s y x)) (withOperands s y x) (wordOf t.toInt) m 0x00 ∧
      Answers (exec .atan2m (withOperands s y' x)) (withOperands s y' x) (wordOf t'.toInt) m 0x00 ∧
      (i32 y ≠ 0 → t' = -t)

/-- The contract's test points with `N = 16`, under every rounding policy: 45° gives a sine and a cosine of 0.7071 ± 0.003 (42 R101),
and the four vectors of R104 give 0°, 90°, 180° and 45°, each within 1° (183 units of brad16 are 1.005°, 182 are below 1°). -/
def Obligations.CordicMeetsItsTestPoints : Prop :=
  (∀ s : State, s.cfg.cordicN = 16 → s.host.opA = 8192 →
    ∃ sn cs : Int, Answers (exec .sincos s) s (wordOf sn) (wordOf cs) 0x00 ∧
      |10000 * sn - 7071 * 32768| ≤ 30 * 32768 ∧ |10000 * cs - 7071 * 32768| ≤ 30 * 32768) ∧
  (∀ s : State, s.cfg.cordicN = 16 →
    (s.host.opA = 0 → s.host.opB = 1 → ∃ m, Answers (exec .atan2m s) s 0 m 0x00) ∧
    (s.host.opA = 1 → s.host.opB = 0 → ∃ m, Answers (exec .atan2m s) s 16384 m 0x00) ∧
    (s.host.opA = 0 → s.host.opB = wordOf (-1) → ∃ m, Answers (exec .atan2m s) s (wordOf (-32768)) m 0x00) ∧
    (s.host.opA = 1 → s.host.opB = 1 →
      ∃ (t : Int) (m : Word), Answers (exec .atan2m s) s (wordOf t) m 0x00 ∧ |t - 8192| ≤ 182))

/-! ### Newton–Raphson -/

/-- RECIP32: the exact floor of `2^32 / x` from 2 up; all ones at 1 without a flag, and at 0 with `DZ` (43_newton.md R120). -/
def Obligations.Recip32IsTheExactFloor : Prop :=
  PlainOpcode 0x30 .recip32 ∧
  ∀ s : State,
    (u32 s.host.opA = 0 → Answers (exec .recip32 s) s 0xFFFFFFFF 0 0x01) ∧
    (u32 s.host.opA = 1 → Answers (exec .recip32 s) s 0xFFFFFFFF 0 0x00) ∧
    (2 ≤ u32 s.host.opA →
      ∃ q : Nat, Answers (exec .recip32 s) s (BitVec.ofNat 64 q) 0 0x00 ∧ q ≤ 2 ^ 31 ∧
        q * u32 s.host.opA ≤ 2 ^ 32 ∧ 2 ^ 32 < (q + 1) * u32 s.host.opA)

/-- ISQRT16 and SQRT16 (43_newton.md R123, R124): the values and flags for `x <= 0`; for `x > 0` the seed `2^(16 - ceil(ex/2))`,
`NR_ISQRT_ITERS` refinements `y·(3 - x·y²)/2` with both rescalings under the rounding policy, and for SQRT16 the product with `x`. -/
def Obligations.InverseSquareRootRefinesItsSeed : Prop :=
  PlainOpcode 0x31 .isqrt16 ∧ PlainOpcode 0x32 .sqrt16 ∧
  ∀ s : State,
    let x := i32 s.host.opA
    let rr := rshiftRound s.cfg.rounding
    let n := s.cfg.nrIsqrtIters
    (x < 0 → Answers (exec .isqrt16 s) s 0x7FFFFFFF 0 0x02 ∧ Answers (exec .sqrt16 s) s 0 0 0x02) ∧
    (x = 0 → Answers (exec .isqrt16 s) s 0x7FFFFFFF 0 0x01 ∧ Answers (exec .sqrt16 s) s 0 0 0x00) ∧
    (0 < x →
      ∃ (p hf : Int) (y : Nat → Int),
        0 ≤ p ∧ p ≤ 30 ∧ 2 ^ p.toNat ≤ x ∧ x < 2 ^ (p.toNat + 1) ∧
        2 * hf - 1 ≤ p - 16 ∧ p - 16 ≤ 2 * hf ∧ y 0 = 2 ^ (16 - hf).toNat ∧
        (∀ i < n, y (i + 1) = rr (y i * (3 * 2 ^ 16 - rr (x * y i * y i) 32)) 17) ∧
        Answers (exec .isqrt16 s) s (wordOf (y n)) 0 0x00 ∧
        Answers (exec .sqrt16 s) s (wordOf (rr (x * y n) 16)) 0 0x00)

/-- At the powers of four the seed is exact and no refinement moves it: `ISQRT16(4^j raw) = 2^(24-j)` and `SQRT16(4^j raw) = 2^(8+j)`, for
every iteration count and rounding policy (the corner cases of R123, R124). -/
def Obligations.SquareRootsOfPowersOfFourAreExact : Prop :=
  ∀ (s : State) (j : Nat), j ≤ 15 → i32 s.host.opA = 4 ^ j →
    Answers (exec .isqrt16 s) s (wordOf (2 ^ (24 - j))) 0 0x00 ∧
    Answers (exec .sqrt16 s) s (wordOf (2 ^ (8 + j))) 0 0x00

/-- FDIV16 (43_newton.md R125): by 0 the extreme with the sign of `a` and `DZ`; else the magnitude times the reciprocal of `abs(b)`,
shifted by 16 under the rounding policy, the sign restored, under the overflow policy. -/
def Obligations.Fdiv16DividesThroughTheReciprocal : Prop :=
  PlainOpcode 0x33 .fdiv16 ∧
  ∀ s : State,
    let a := i32 s.host.opA
    let b := i32 s.host.opB
    (b = 0 → a < 0 → Answers (exec .fdiv16 s) s (wordOf (-(2 ^ 31))) 0 0x01) ∧
    (b = 0 → 0 ≤ a → Answers (exec .fdiv16 s) s (wordOf (2 ^ 31 - 1)) 0 0x01) ∧
    (b ≠ 0 → ∃ rc : Nat, IsReciprocal b.natAbs rc ∧
      (((a < 0 ↔ b < 0) → FollowsPolicy s signed32 (rshiftRound s.cfg.rounding (|a| * rc) 16) (exec .fdiv16 s)) ∧
       (¬(a < 0 ↔ b < 0) → FollowsPolicy s signed32 (-rshiftRound s.cfg.rounding (|a| * rc) 16) (exec .fdiv16 s))))

/-- FDIV16 by 1.0 gives the dividend back exactly, under every policy (the corner case of R125). -/
def Obligations.Fdiv16ByOneIsTheDividend : Prop :=
  ∀ s : State, i32 s.host.opB = 0x10000 → Answers (exec .fdiv16 s) s (wordOf (i32 s.host.opA)) 0 0x00

/-! ### The divider -/

/-- DIV32: the exact `floor(a / b)` for every `b != 0`; by 0 all ones and `DZ` (44_divider.md R140). The last clause is about the loop
body, which R140 marks as general knowledge: its 32 iterations yield that quotient and leave the discarded remainder `a mod b`. -/
def Obligations.RestoringDivisionIsTheExactFloor : Prop :=
  PlainOpcode 0x40 .div32 ∧
  (∀ s : State,
    (u32 s.host.opB = 0 → Answers (exec .div32 s) s 0xFFFFFFFF 0 0x01) ∧
    (u32 s.host.opB ≠ 0 →
      Answers (exec .div32 s) s (BitVec.ofNat 64 (u32 s.host.opA / u32 s.host.opB)) 0 0x00)) ∧
  ∀ a b : Nat, a < 2 ^ 32 → 0 < b → divide32 a b = ⟨a % b, a / b⟩

/-- SDIV32: the quotient rounded toward zero under the overflow policy; by 0 the extreme with the sign of `a` and `DZ` (R141). -/
def Obligations.Sdiv32DividesTowardZero : Prop :=
  PlainOpcode 0x41 .sdiv32 ∧
  ∀ s : State,
    let a := i32 s.host.opA
    let b := i32 s.host.opB
    (b = 0 → a < 0 → Answers (exec .sdiv32 s) s (wordOf (-(2 ^ 31))) 0 0x01) ∧
    (b = 0 → 0 ≤ a → Answers (exec .sdiv32 s) s (wordOf (2 ^ 31 - 1)) 0 0x01) ∧
    (b ≠ 0 → FollowsPolicy s signed32 (a.tdiv b) (exec .sdiv32 s))

/-! ### Exponential and logarithm -/

/-- EXP16 by the reference algorithm (45_explog.md R151); the result is never negative. -/
def Obligations.Exp16EvaluatesThePolynomial : Prop :=
  PlainOpcode 0x50 .exp16 ∧
  ∀ s : State,
    let x := i32 s.host.opA
    let k := (x * 94548 + 2 ^ 31) / 2 ^ 32
    (15 < k → Answers (exec .exp16 s) s 0x7FFFFFFF 0 0x04) ∧
    (k < -16 → Answers (exec .exp16 s) s 0 0 0x04) ∧
    (-16 ≤ k → k ≤ 15 →
      let rr := rshiftRound s.cfg.rounding
      let r := x - k * 45426
      let r2 := rr (r * r) 16
      let r3 := rr (r2 * r) 16
      let r4 := rr (r3 * r) 16
      let p := 65536 + r + r2.tdiv 2 + r3.tdiv 6 + r4.tdiv 24
      let v := if 0 ≤ k then p * 2 ^ k.toNat else p / 2 ^ (-k).toNat
      0 ≤ v ∧ (0x7FFFFFFF < v → Answers (exec .exp16 s) s 0x7FFFFFFF 0 0x04) ∧
        (v ≤ 0x7FFFFFFF → Answers (exec .exp16 s) s (wordOf v) 0 0x00))

/-- `RO` is set with the maximum for every `x >= 681390` and with 0 for every `x <= -749535`, and for no other `x`, under every rounding
policy (60_exceptions.md R173; 45 R151). -/
def Obligations.Exp16RangeOverflowThresholds : Prop :=
  ∀ s : State,
    (681390 ≤ i32 s.host.opA → Answers (exec .exp16 s) s 0x7FFFFFFF 0 0x04) ∧
    (i32 s.host.opA ≤ -749535 → Answers (exec .exp16 s) s 0 0 0x04) ∧
    (-749535 < i32 s.host.opA → i32 s.host.opA < 681390 →
      ∃ v : Int, 0 ≤ v ∧ v ≤ 0x7FFFFFFF ∧ Answers (exec .exp16 s) s (wordOf v) 0 0x00)

/-- LN16 by the reference algorithm (45_explog.md R153): the minimum and `DE` for `x <= 0`; else the normalised mantissa, the truncated
quotient, three series terms and `e·ln2`; the result cannot overflow and is at least -726816. -/
def Obligations.Ln16SumsTheSeries : Prop :=
  PlainOpcode 0x51 .ln16 ∧
  ∀ s : State,
    let x := i32 s.host.opA
    (x ≤ 0 → Answers (exec .ln16 s) s 0xFFFFFFFF80000000 0 0x02) ∧
    (0 < x →
      ∃ p : Nat, p ≤ 30 ∧ 2 ^ p ≤ x ∧ x < 2 ^ (p + 1) ∧
        (let rr := rshiftRound s.cfg.rounding
         let m : Int := if p ≤ 16 then x * 2 ^ (16 - p) else x / 2 ^ (p - 16)
         let t := ((m - 65536) * 2 ^ 16).tdiv (m + 65536)
         let t2 := rr (t * t) 16
         let t3 := rr (t2 * t) 16
         let t5 := rr (t3 * t2) 16
         let v := 2 * (t + t3.tdiv 3 + t5.tdiv 5) + ((p : Int) - 16) * 45426
         (-726816 ≤ v) ∧ v < 2 ^ 31 ∧ Answers (exec .ln16 s) s (wordOf v) 0 0x00))

/-- LN16 of every power of two is exact, `(p - 16)·45426`, and EXP16 takes it back, under every rounding policy: the inverse law of the
source at 0.5, 1, 2 and 4, with no error at all (45_explog.md R154; corner cases of R151, R153). -/
def Obligations.ExpInvertsLnAtPowersOfTwo : Prop :=
  ∀ (s : State) (p : Nat), p ≤ 30 → i32 s.host.opA = 2 ^ p →
    ∃ w : Word, Answers (exec .ln16 s) s w 0 0x00 ∧ w = wordOf (((p : Int) - 16) * 45426) ∧
      ∀ b : Word, Answers (exec .exp16 (withOperands s w b)) (withOperands s w b) (wordOf (2 ^ p)) 0 0x00

/-! ### Formats -/

/-- The per-format constants at `F = 16` and in Q1.15 (10_state.md R23), and the descriptors of Q16.16 and Q1.15 (R16). The digits of the
constants are general knowledge (entry 11). -/
def Obligations.FormatConstantsAndDescriptors : Prop :=
  [MathConstant.pi, .e, .sqrt2, .ln2].map (constantOf ⟨32, 16, .signed⟩) = [205887, 178145, 92682, 45426] ∧
  [MathConstant.pi, .e, .sqrt2, .ln2].map (constantOf ⟨16, 15, .signed⟩) = [32767, 32767, 32767, 22713] ∧
  descriptorOf ⟨32, 16, .signed⟩ = ⟨32, 16, 16, true, -32768, 2147483647 / 65536, 1 / 65536⟩ ∧
  descriptorOf ⟨16, 15, .signed⟩ = ⟨16, 1, 15, true, -1, 32767 / 32768, 1 / 32768⟩
end

