-- ==== Sys2Proof/Laws/Decode.lean ====
section
/-! SUPPORT. The fields of an encoded command, and that no command word matches two rows of the opcode table. -/

namespace Sys2Proof

/-- No two rows of the opcode table overlap (30_encoding.md R47). -/
theorem opcodeRows_disjoint : opcodeRows.Pairwise (fun r q => OpcodeRow.disjoint r q = true) := by decide

theorem opcode_lt (i : Instr) : i.opcode < 256 := by cases i <;> simp [Instr.opcode]

theorem fmt_lt_of_wellFormed {i : Instr} (h : i.wellFormed = true) : i.fmt?.getD 0 < 16 := by
  unfold Instr.wellFormed at h
  cases hf : i.fmt? with
  | none => decide
  | some n => simp only [hf, decide_eq_true_eq] at h; exact h

theorem encode_toNat {i : Instr} (h : i.wellFormed = true) : (encode i).toNat = i.fmt?.getD 0 * 256 + i.opcode := by
  have h1 := opcode_lt i
  have h2 := fmt_lt_of_wellFormed h
  rw [encode, BitVec.toNat_ofNat]
  omega

theorem opcode_encode {i : Instr} (h : i.wellFormed = true) : Command.opcode (encode i) = i.opcode := by
  have h1 := opcode_lt i
  rw [Command.opcode, encode_toNat h]; omega

theorem fmt_encode {i : Instr} (h : i.wellFormed = true) : Command.fmt (encode i) = i.fmt?.getD 0 := by
  have h1 := opcode_lt i
  have h2 := fmt_lt_of_wellFormed h
  rw [Command.fmt, encode_toNat h]; omega

theorem zero_encode {i : Instr} (h : i.wellFormed = true) : Command.zero (encode i) = 0 := by
  have h1 := opcode_lt i
  have h2 := fmt_lt_of_wellFormed h
  rw [Command.zero, encode_toNat h]; omega

end Sys2Proof
end

