-- ==== Sys2Proof/Laws/Operands.lean ====
section
/-! SUPPORT. The readings of words and the ranges of formats as core BitVec and Int arithmetic: what every operand class and every
policy step yields. -/

namespace Sys2Proof.Machine

theorem sintW_of_toNat {w : Nat} (hw : 0 < w) (x : BitVec w) : sintW w (x.toNat : Int) = x.toInt := by
  obtain ⟨k, rfl⟩ : ∃ k, w = k + 1 := ⟨w - 1, by omega⟩
  rw [BitVec.toInt_eq_toNat_cond]
  simp only [sintW, Nat.add_sub_cancel]
  have h2 : (2 : Int) ^ (k + 1) = 2 * 2 ^ k := by rw [pow_succ]; ring
  have h3 : (2 : Nat) ^ (k + 1) = 2 * 2 ^ k := by rw [pow_succ]; ring
  have hc : ((x.toNat : Int) < 2 ^ k) ↔ 2 * x.toNat < 2 ^ (k + 1) := by
    rw [h3]; constructor
    · intro h; have : x.toNat < 2 ^ k := by exact_mod_cast h
      omega
    · intro h; have : x.toNat < 2 ^ k := by omega
      exact_mod_cast this
  by_cases h : 2 * x.toNat < 2 ^ (k + 1)
  · rw [if_pos (hc.mpr h), if_pos h]
  · rw [if_neg (fun h' => h (hc.mp h')), if_neg h]; push_cast; rfl

theorem lowBits_eq (w : Nat) (x : Word) : lowBits w x = ((x.setWidth w).toNat : Int) := by
  simp only [lowBits, BitVec.toNat_setWidth]

theorem readI64_eq (x : Word) : readI64 x = x.toInt := by
  rw [readI64, lowBits_eq, sintW_of_toNat (by decide), BitVec.setWidth_eq]

theorem readI32_eq (x : Word) : readI32 x = (x.setWidth 32).toInt := by
  rw [readI32, lowBits_eq, sintW_of_toNat (by decide)]

theorem readI16_eq (x : Word) : readI16 x = (x.setWidth 16).toInt := by
  rw [readI16, lowBits_eq, sintW_of_toNat (by decide)]

theorem readU32_eq (x : Word) : readU32 x = (x.setWidth 32).toNat := by
  simp only [readU32, BitVec.toNat_setWidth]

theorem readSh6_eq (x : Word) : readSh6 x = (x.setWidth 6).toNat := by
  simp only [readSh6, BitVec.toNat_setWidth]

theorem readI32_bounds (x : Word) : -2 ^ 31 ≤ readI32 x ∧ readI32 x < 2 ^ 31 := by
  rw [readI32_eq]
  have h1 := BitVec.le_toInt (x.setWidth 32)
  have h2 := BitVec.toInt_lt (x := x.setWidth 32)
  norm_num at h1 h2 ⊢
  exact ⟨h1, h2⟩

theorem readI16_bounds (x : Word) : -2 ^ 15 ≤ readI16 x ∧ readI16 x < 2 ^ 15 := by
  rw [readI16_eq]
  have h1 := BitVec.le_toInt (x.setWidth 16)
  have h2 := BitVec.toInt_lt (x := x.setWidth 16)
  norm_num at h1 h2 ⊢
  exact ⟨h1, h2⟩

theorem readI64_bounds (x : Word) : -2 ^ 63 ≤ readI64 x ∧ readI64 x < 2 ^ 63 := by
  rw [readI64_eq]
  have h1 := BitVec.le_toInt x
  have h2 := BitVec.toInt_lt (x := x)
  norm_num at h1 h2 ⊢
  exact ⟨h1, h2⟩

theorem readU32_lt (x : Word) : readU32 x < 2 ^ 32 := Nat.mod_lt _ (by decide)

/-- A legal format has a positive width of at most 64 bits. -/
theorem width_of_wf {f : Format} (h : f.wf = true) : 0 < f.width ∧ f.width ≤ 64 := by
  simp only [Format.wf, Bool.and_eq_true, Bool.or_eq_true, beq_iff_eq] at h
  omega

theorem frac_of_wf {f : Format} (h : f.wf = true) : f.frac ≤ f.width := by
  obtain ⟨w, r, s⟩ := f
  cases s <;> simp [Format.wf] at h ⊢ <;> omega

theorem operand_signed {f : Format} (hw : 0 < f.width) (h : f.sign = .signed) (x : Word) :
    operand f x = (x.setWidth f.width).toInt := by
  simp only [operand, h]; rw [lowBits_eq, sintW_of_toNat hw]

theorem operand_unsigned {f : Format} (h : f.sign = .unsigned) (x : Word) :
    operand f x = (x.setWidth f.width).toNat := by
  simp only [operand, h, lowBits_eq]

theorem uintW_nonneg (w : Nat) (v : Int) : 0 ≤ uintW w v := Int.emod_nonneg _ (by positivity)

theorem uintW_lt (w : Nat) (v : Int) : uintW w v < 2 ^ w := Int.emod_lt_of_pos _ (by positivity)

theorem uintW_congr (w : Nat) (v : Int) : (2 : Int) ^ w ∣ v - uintW w v := Int.dvd_self_sub_emod

theorem sintW_congr (w : Nat) (u : Int) : (2 : Int) ^ w ∣ u - sintW w u := by
  unfold sintW; split
  · simp
  · simp

theorem sintW_bounds {w : Nat} (hw : 0 < w) {u : Int} (h0 : 0 ≤ u) (h1 : u < 2 ^ w) :
    -(2 ^ (w - 1)) ≤ sintW w u ∧ sintW w u ≤ 2 ^ (w - 1) - 1 := by
  obtain ⟨k, rfl⟩ : ∃ k, w = k + 1 := ⟨w - 1, by omega⟩
  simp only [sintW, Nat.add_sub_cancel]
  have h2 : (2 : Int) ^ (k + 1) = 2 * 2 ^ k := by rw [pow_succ]; ring
  split <;> constructor <;> omega

theorem fmtMin_le_zero (f : Format) : fmtMin f ≤ 0 := by
  unfold fmtMin; split
  · have : (0 : Int) < 2 ^ (f.width - 1) := by positivity
    omega
  · exact le_refl 0

theorem zero_le_fmtMax (f : Format) : 0 ≤ fmtMax f := by
  unfold fmtMax; split
  · have : (0 : Int) < 2 ^ (f.width - 1) := by positivity
    omega
  · have : (0 : Int) < 2 ^ f.width := by positivity
    omega

theorem inRange_iff (f : Format) (v : Int) : inRange f v = true ↔ fmtMin f ≤ v ∧ v ≤ fmtMax f := by
  simp only [inRange, decide_eq_true_eq]

theorem operand_inRange {f : Format} (hw : 0 < f.width) (x : Word) : inRange f (operand f x) = true := by
  have h0 : 0 ≤ lowBits f.width x := by unfold lowBits; positivity
  have h1 : lowBits f.width x < 2 ^ f.width := by
    unfold lowBits
    have := Nat.mod_lt x.toNat (show 0 < 2 ^ f.width by positivity)
    exact_mod_cast this
  rw [inRange_iff]
  unfold operand fmtMin fmtMax
  cases f.sign
  · exact sintW_bounds hw h0 h1
  · exact ⟨h0, by simp only []; omega⟩

theorem wrapTo_inRange {f : Format} (hw : 0 < f.width) (v : Int) : inRange f (wrapTo f v) = true := by
  rw [inRange_iff]
  unfold wrapTo fmtMin fmtMax
  cases f.sign
  · exact sintW_bounds hw (uintW_nonneg _ _) (uintW_lt _ _)
  · exact ⟨uintW_nonneg _ _, by have := uintW_lt f.width v; simp only []; omega⟩

/-- `wrap` keeps the value modulo `2^W` (R63). -/
theorem wrapTo_congr (f : Format) (v : Int) : (2 : Int) ^ f.width ∣ v - wrapTo f v := by
  unfold wrapTo
  cases f.sign
  · have h1 := uintW_congr f.width v
    have h2 := sintW_congr f.width (uintW f.width v)
    have := dvd_add h1 h2
    simpa using this
  · exact uintW_congr _ _

theorem clampTo_inRange (f : Format) (v : Int) : inRange f (clampTo f v) = true := by
  have h1 := fmtMin_le_zero f
  have h2 := zero_le_fmtMax f
  rw [inRange_iff]; unfold clampTo clamp; omega

theorem clampTo_of_inRange {f : Format} {v : Int} (h : inRange f v = true) : clampTo f v = v := by
  rw [inRange_iff] at h; unfold clampTo clamp; omega

theorem clampTo_of_lt {f : Format} {v : Int} (h : v < fmtMin f) : clampTo f v = fmtMin f := by
  have h1 := fmtMin_le_zero f
  have h2 := zero_le_fmtMax f
  unfold clampTo clamp; omega

theorem clampTo_of_gt {f : Format} {v : Int} (h : fmtMax f < v) : clampTo f v = fmtMax f := by
  have h1 := fmtMin_le_zero f
  have h2 := zero_le_fmtMax f
  unfold clampTo clamp; omega

/-- Both extensions of a value in range are its 64-bit two's complement pattern (R44, R64). -/
theorem put_of_inRange {f : Format} {v : Int} (h : inRange f v = true) : put f v = BitVec.ofInt 64 v := by
  rw [inRange_iff] at h
  unfold put
  cases hs : f.sign
  · rfl
  · simp only [fmtMin, hs] at h
    simp only [zext64]
    rw [← BitVec.ofInt_natCast, Int.toNat_of_nonneg h.1]

theorem zext64_of_nonneg {u : Int} (h : 0 ≤ u) : zext64 u = BitVec.ofInt 64 u := by
  rw [zext64, ← BitVec.ofInt_natCast, Int.toNat_of_nonneg h]

/-- A signed 64-bit value is read back from its word. -/
theorem toInt_sext64 {v : Int} (h0 : -2 ^ 63 ≤ v) (h1 : v < 2 ^ 63) : (sext64 v).toInt = v := by
  rw [sext64, BitVec.toInt_ofInt]
  exact Int.bmod_eq_of_le (by norm_num at h0 ⊢; omega) (by norm_num at h1 ⊢; omega)

theorem zeroDivisorValue_range (f : Format) (a : Int) :
    inRange f (if a < 0 then fmtMin f else fmtMax f) = true := by
  have h1 := fmtMin_le_zero f
  have h2 := zero_le_fmtMax f
  rw [inRange_iff]; split <;> omega

/-- `msb32` is the place of the highest set bit. -/
theorem msb32_spec {u : Nat} (h0 : 0 < u) (h1 : u < 2 ^ 32) : 2 ^ msb32 u ≤ u ∧ u < 2 ^ (msb32 u + 1) := by
  have hl : u.log2 < 32 := (Nat.log2_lt (by omega)).mpr h1
  have : msb32 u = u.log2 := by
    unfold msb32 clz32 bitLength; rw [if_neg (by omega)]; omega
  rw [this]
  exact ⟨Nat.log2_self_le (by omega), Nat.lt_log2_self⟩

end Sys2Proof.Machine
end

