-- ==== Sys2Proof/Laws/State.lean ====
section
/-! SUPPORT. What each named update of the state does to each field. -/

namespace Sys2Proof.Machine

@[simp] theorem setPending_cfg (p : Option Response) (s : State) : (setPending p s).cfg = s.cfg := rfl
@[simp] theorem setPending_pending (p : Option Response) (s : State) : (setPending p s).pending = p := rfl
@[simp] theorem setPending_host (p : Option Response) (s : State) : (setPending p s).host = s.host := rfl
@[simp] theorem setPending_script (p : Option Response) (s : State) : (setPending p s).script = s.script := rfl
@[simp] theorem setPending_responses (p : Option Response) (s : State) : (setPending p s).responses = s.responses := rfl
@[simp] theorem setPending_stopOnTrap (p : Option Response) (s : State) : (setPending p s).stopOnTrap = s.stopOnTrap := rfl
@[simp] theorem setPending_stopOnIll (p : Option Response) (s : State) : (setPending p s).stopOnIll = s.stopOnIll := rfl
@[simp] theorem setPending_draws (p : Option Response) (s : State) : (setPending p s).draws = s.draws := rfl

@[simp] theorem recordResponse_cfg (r : Response) (s : State) : (recordResponse r s).cfg = s.cfg := rfl
@[simp] theorem recordResponse_pending (r : Response) (s : State) : (recordResponse r s).pending = s.pending := rfl
@[simp] theorem recordResponse_host (r : Response) (s : State) : (recordResponse r s).host = s.host := rfl
@[simp] theorem recordResponse_script (r : Response) (s : State) : (recordResponse r s).script = s.script := rfl
@[simp] theorem recordResponse_responses (r : Response) (s : State) : (recordResponse r s).responses = s.responses ++ [r] := rfl
@[simp] theorem recordResponse_stopOnTrap (r : Response) (s : State) : (recordResponse r s).stopOnTrap = s.stopOnTrap := rfl
@[simp] theorem recordResponse_stopOnIll (r : Response) (s : State) : (recordResponse r s).stopOnIll = s.stopOnIll := rfl
@[simp] theorem recordResponse_draws (r : Response) (s : State) : (recordResponse r s).draws = s.draws := rfl

@[simp] theorem offerCommand_cfg (s : State) (cmd : Command) : (offerCommand s cmd).cfg = s.cfg := rfl
@[simp] theorem offerCommand_pending (s : State) (cmd : Command) : (offerCommand s cmd).pending = none := rfl
@[simp] theorem offerCommand_host (s : State) (cmd : Command) : (offerCommand s cmd).host = { s.host with resetIn := false, reqValid := true, cmd := cmd } := rfl
@[simp] theorem offerCommand_script (s : State) (cmd : Command) : (offerCommand s cmd).script = s.script := rfl
@[simp] theorem offerCommand_responses (s : State) (cmd : Command) : (offerCommand s cmd).responses = s.responses := rfl
@[simp] theorem offerCommand_stopOnTrap (s : State) (cmd : Command) : (offerCommand s cmd).stopOnTrap = s.stopOnTrap := rfl
@[simp] theorem offerCommand_stopOnIll (s : State) (cmd : Command) : (offerCommand s cmd).stopOnIll = s.stopOnIll := rfl
@[simp] theorem offerCommand_draws (s : State) (cmd : Command) : (offerCommand s cmd).draws = s.draws := rfl

theorem advance_nil {s : State} (h : s.script = []) :
    advance s = { s with host := quiet s.host, draws := s.draws + 1 } := by
  simp only [advance, h]

theorem advance_cons {s : State} {l : HostSignals} {rest : List HostSignals} (h : s.script = l :: rest) :
    advance s = { s with host := l, script := rest, draws := s.draws + 1 } := by
  simp only [advance, h]

@[simp] theorem advance_cfg (s : State) : (advance s).cfg = s.cfg := by
  unfold advance; split <;> rfl

@[simp] theorem advance_pending (s : State) : (advance s).pending = s.pending := by
  unfold advance; split <;> rfl

@[simp] theorem advance_responses (s : State) : (advance s).responses = s.responses := by
  unfold advance; split <;> rfl

@[simp] theorem advance_stopOnTrap (s : State) : (advance s).stopOnTrap = s.stopOnTrap := by
  unfold advance; split <;> rfl

@[simp] theorem advance_stopOnIll (s : State) : (advance s).stopOnIll = s.stopOnIll := by
  unfold advance; split <;> rfl

@[simp] theorem advance_draws (s : State) : (advance s).draws = s.draws + 1 := by
  unfold advance; split <;> rfl

@[simp] theorem quiet_resetIn (h : HostSignals) : (quiet h).resetIn = false := rfl
@[simp] theorem quiet_reqValid (h : HostSignals) : (quiet h).reqValid = false := rfl
@[simp] theorem quiet_rspReady (h : HostSignals) : (quiet h).rspReady = false := rfl
@[simp] theorem quiet_cmd (h : HostSignals) : (quiet h).cmd = h.cmd := rfl
@[simp] theorem quiet_opA (h : HostSignals) : (quiet h).opA = h.opA := rfl
@[simp] theorem quiet_opB (h : HostSignals) : (quiet h).opB = h.opB := rfl

end Sys2Proof.Machine
end

