-- ==== Sys2Proof/Laws/Ops.lean ====
section
/-! SUPPORT. One lemma per shared operation: everything the rounding shift, `resolve`, the forming of a response and the events of the
ports can do. -/

namespace Sys2Proof.Machine

/-! ### The rounding shift -/

@[simp] theorem rshiftRound_zero (mode : RoundingPolicy) (v : Int) : rshiftRound mode v 0 = v := rfl

theorem neg_asr_neg (v : Int) (s : Nat) : -asr (-v) s = (v + (2 ^ s - 1)) / 2 ^ s := by
  have hp : (0 : Int) < 2 ^ s := by positivity
  unfold asr
  apply eq_comm.mp
  apply Int.ediv_eq_iff_of_pos hp |>.mpr
  have h1 := Int.emod_add_mul_ediv (-v) (2 ^ s)
  have h2 := Int.emod_nonneg (-v) hp.ne'
  have h3 := Int.emod_lt_of_pos (-v) hp
  constructor <;> nlinarith

/-- Every mode rounds to the floor or to one above it. -/
theorem rshiftRound_bounds (mode : RoundingPolicy) (v : Int) (s : Nat) :
    v / 2 ^ s ≤ rshiftRound mode v s ∧ rshiftRound mode v s ≤ v / 2 ^ s + 1 := by
  have hp : (0 : Int) < 2 ^ s := by positivity
  have hceil : v / 2 ^ s ≤ (v + (2 ^ s - 1)) / 2 ^ s ∧ (v + (2 ^ s - 1)) / 2 ^ s ≤ v / 2 ^ s + 1 := by
    constructor
    · exact Int.ediv_le_ediv hp (by omega)
    · have h1 : v / 2 ^ s + 1 = (v + 1 * 2 ^ s) / 2 ^ s := (Int.add_mul_ediv_right _ _ hp.ne').symm
      rw [h1]
      exact Int.ediv_le_ediv hp (by omega)
  unfold rshiftRound
  split
  · subst_vars; simp
  · rename_i hs
    cases mode
    · simp only []
      split
      · unfold asr; omega
      · rw [neg_asr_neg]; exact hceil
    · obtain ⟨k, rfl⟩ : ∃ k, s = k + 1 := ⟨s - 1, by omega⟩
      simp only [Nat.add_sub_cancel, asr]
      have hk : (0 : Int) < 2 ^ k := by positivity
      have h2 : (2 : Int) ^ (k + 1) = 2 * 2 ^ k := by rw [pow_succ]; ring
      constructor
      · exact Int.ediv_le_ediv hp (by omega)
      · have h1 : v / 2 ^ (k + 1) + 1 = (v + 1 * 2 ^ (k + 1)) / 2 ^ (k + 1) :=
          (Int.add_mul_ediv_right _ _ hp.ne').symm
        rw [h1]
        exact Int.ediv_le_ediv hp (by omega)
    · simp only [asr]; omega
    · simp only []; rw [neg_asr_neg]; exact hceil

/-- A multiple of `2^s` is shifted exactly, in every mode. -/
theorem rshiftRound_exact (mode : RoundingPolicy) (v : Int) (s : Nat) : rshiftRound mode (v * 2 ^ s) s = v := by
  have hp : (0 : Int) < 2 ^ s := by positivity
  have hn : asr (-(v * 2 ^ s)) s = -v := by
    unfold asr; rw [← Int.neg_mul]; exact Int.mul_ediv_cancel _ hp.ne'
  have ha : asr (v * 2 ^ s) s = v := by unfold asr; exact Int.mul_ediv_cancel _ hp.ne'
  unfold rshiftRound
  split
  · subst_vars; simp
  · rename_i hs
    cases mode
    · simp only []; split <;> simp only [ha, hn, neg_neg]
    · obtain ⟨k, rfl⟩ : ∃ k, s = k + 1 := ⟨s - 1, by omega⟩
      simp only [Nat.add_sub_cancel, asr]
      have hk : (0 : Int) < 2 ^ k := by positivity
      rw [Int.add_comm, Int.add_mul_ediv_right _ _ hp.ne', Int.ediv_eq_zero_of_lt hk.le
        (by rw [pow_succ]; omega), zero_add]
    · exact ha
    · simp only [hn, neg_neg]

theorem rshiftRound_nonneg (mode : RoundingPolicy) {v : Int} (h : 0 ≤ v) (s : Nat) : 0 ≤ rshiftRound mode v s :=
  le_trans (Int.ediv_nonneg h (by positivity)) (rshiftRound_bounds mode v s).1

/-! ### Resolving and responding -/

theorem resolve_of_inRange {f : Format} {v : Int} (h : inRange f v = true) (p : OverflowPolicy) :
    resolve f p v = .value v false := by
  simp only [resolve, h, if_true]

theorem resolve_of_outOfRange {f : Format} {v : Int} (h : inRange f v = false) (p : OverflowPolicy) :
    resolve f p v =
      match p with
      | .wrap => .value (wrapTo f v) true
      | .saturate => .value (clampTo f v) true
      | .trap => .trapped := by
  cases p <;> simp [resolve, h]

/-- The five things `resolvedResponse` can be (R63, R64, R176). -/
theorem resolvedResponse_cases (s : State) (f : Format) (v : Int) :
    (inRange f v = true ∧ resolvedResponse s f v = respond (put f v) 0 {}) ∨
    (inRange f v = false ∧ s.cfg.overflow = .wrap ∧
      resolvedResponse s f v = respond (put f (wrapTo f v)) 0 { fo := true }) ∨
    (inRange f v = false ∧ s.cfg.overflow = .saturate ∧
      resolvedResponse s f v = respond (put f (clampTo f v)) 0 { fo := true }) ∨
    (inRange f v = false ∧ s.cfg.overflow = .trap ∧ resolvedResponse s f v = raiseTrap s) := by
  unfold resolvedResponse
  by_cases h : inRange f v = true
  · exact .inl ⟨h, by rw [resolve_of_inRange h]⟩
  · have h : inRange f v = false := by simpa using h
    rw [resolve_of_outOfRange h]
    cases hp : s.cfg.overflow <;> simp [h]

@[simp] theorem raiseTrap_status (s : State) : (raiseTrap s).status = 0x18 := rfl

/-! ### Answering -/

theorem answer_eq (r : Response) (s : State) : answer r s = .next (setPending (some r) s) := rfl

theorem inFormat_of_some {fmt : Nat} {s : State} {f : Format} (h : s.cfg.formats[fmt]? = some f) (k : Format → Response) :
    inFormat fmt s k = answer (k f) s := by
  simp only [inFormat, h]

theorem inFormat_of_none {fmt : Nat} {s : State} (h : s.cfg.formats[fmt]? = none) (k : Format → Response) :
    inFormat fmt s k = answer illegalResponse s := by
  simp only [inFormat, h]

/-- An operation in a format answers: its own response, or the response to an illegal command. -/
theorem inFormat_cases (fmt : Nat) (s : State) (k : Format → Response) :
    (∃ f, s.cfg.formats[fmt]? = some f ∧ inFormat fmt s k = answer (k f) s) ∨
    (s.cfg.formats[fmt]? = none ∧ inFormat fmt s k = answer illegalResponse s) := by
  cases h : s.cfg.formats[fmt]? with
  | none => exact .inr ⟨rfl, inFormat_of_none h k⟩
  | some f => exact .inl ⟨f, rfl, inFormat_of_some h k⟩

/-! ### The events of the ports -/

/-- `req_ready` is high exactly out of reset with nothing pending (R190, R194.1). -/
theorem reqReady_iff (s : State) : reqReady s = true ↔ s.host.resetIn = false ∧ s.pending = none := by
  simp [reqReady]

/-- `rsp_valid` is high exactly out of reset with a response pending (R190, R194.2). -/
theorem rspValid_iff (s : State) : rspValid s = true ↔ s.host.resetIn = false ∧ ∃ r, s.pending = some r := by
  simp [rspValid, Option.isSome_iff_exists]

/-- Nothing pending, nothing offered. -/
theorem rspValid_of_none {s : State} (hp : s.pending = none) : rspValid s = false := by
  simp [rspValid, hp]

/-- The payload offered is the pending response (R194.2, 10_state.md R24). -/
theorem rspPayload_of_pending {s : State} {r : Response} (hr : s.host.resetIn = false) (hp : s.pending = some r) :
    rspPayload s = r := by
  simp only [rspPayload, hr, hp]

/-- Taking a response ends the run or empties `pending` and hands the response over (R194.3, R176, R49). -/
theorem takeResponse_cases (r : Response) (s : State) :
    (hasTrap r = true ∧ s.stopOnTrap = true ∧ takeResponse r s = .fault .trapResponse) ∨
    (hasIll r = true ∧ s.stopOnIll = true ∧ takeResponse r s = .refused .illegalCommand) ∨
    (takeResponse r s = .next (recordResponse r (setPending none s))) := by
  unfold takeResponse
  split
  · rename_i h; simp only [Bool.and_eq_true] at h; exact .inl ⟨h.1, h.2, rfl⟩
  · split
    · rename_i h; simp only [Bool.and_eq_true] at h; exact .inr (.inl ⟨h.1, h.2, rfl⟩)
    · exact .inr (.inr rfl)

theorem afterStep_next {o : Result} {t : State} (h : afterStep o = .next t) : ∃ u, o = .next u ∧ t = advance u := by
  cases o with
  | next u => exact ⟨u, rfl, by simpa [afterStep] using h.symm⟩
  | fault r => simp [afterStep] at h
  | refused r => simp [afterStep] at h

end Sys2Proof.Machine
end

