-- ==== Sys2Proof/Laws/Exec.lean ====
section
/-! SUPPORT. What `exec` is for each operation, as one answer: the response it forms. -/

namespace Sys2Proof.Machine

/-! ### Operations in a format -/

variable {fmt : Nat} {f : Format} {s : State}

theorem exec_qadd (h : s.cfg.formats[fmt]? = some f) :
    exec (.qadd fmt) s = answer (resolvedResponse s f (operand f s.host.opA + operand f s.host.opB)) s :=
  inFormat_of_some h _

theorem exec_qsub (h : s.cfg.formats[fmt]? = some f) :
    exec (.qsub fmt) s = answer (resolvedResponse s f (operand f s.host.opA - operand f s.host.opB)) s :=
  inFormat_of_some h _

theorem exec_qmul (h : s.cfg.formats[fmt]? = some f) :
    exec (.qmul fmt) s = answer (resolvedResponse s f (rshiftRound s.cfg.rounding (operand f s.host.opA * operand f s.host.opB) f.frac)) s :=
  inFormat_of_some h _

theorem exec_qdiv (h : s.cfg.formats[fmt]? = some f) :
    exec (.qdiv fmt) s = answer (qdivResponse s f (operand f s.host.opA) (operand f s.host.opB)) s :=
  inFormat_of_some h _

theorem exec_qabs (h : s.cfg.formats[fmt]? = some f) :
    exec (.qabs fmt) s = answer (resolvedResponse s f (absI (operand f s.host.opA))) s :=
  inFormat_of_some h _

theorem exec_qneg (h : s.cfg.formats[fmt]? = some f) :
    exec (.qneg fmt) s = answer (resolvedResponse s f (-operand f s.host.opA)) s :=
  inFormat_of_some h _

theorem exec_qone (h : s.cfg.formats[fmt]? = some f) :
    exec (.qone fmt) s = answer (respond (put f (oneOf f)) 0 {}) s :=
  inFormat_of_some h _

theorem exec_qhalf (h : s.cfg.formats[fmt]? = some f) :
    exec (.qhalf fmt) s = answer (respond (put f (halfOf f)) 0 {}) s :=
  inFormat_of_some h _

theorem exec_qfromint (h : s.cfg.formats[fmt]? = some f) :
    exec (.qfromint fmt) s = answer (resolvedResponse s f (shl (readI64 s.host.opA) f.frac)) s :=
  inFormat_of_some h _

theorem exec_qtoint (h : s.cfg.formats[fmt]? = some f) :
    exec (.qtoint fmt) s = answer (respond (sext64 (rshiftRound s.cfg.toIntMode (operand f s.host.opA) f.frac)) 0 {}) s :=
  inFormat_of_some h _

theorem exec_satadd (h : s.cfg.formats[fmt]? = some f) :
    exec (.satadd fmt) s = answer (clampedResponse f (operand f s.host.opA + operand f s.host.opB)) s :=
  inFormat_of_some h _

theorem exec_satsub (h : s.cfg.formats[fmt]? = some f) :
    exec (.satsub fmt) s = answer (clampedResponse f (operand f s.host.opA - operand f s.host.opB)) s :=
  inFormat_of_some h _

theorem exec_narrow (h : s.cfg.formats[fmt]? = some f) :
    exec (.narrow fmt) s = answer (resolvedResponse s f (readI64 s.host.opA)) s :=
  inFormat_of_some h _

/-! ### Operations without a format -/

theorem exec_rshr (s : State) :
    exec .rshr s = answer (respond (sext64 (rshiftRound s.cfg.rounding (readI64 s.host.opA) (readSh6 s.host.opB))) 0 {}) s := rfl

theorem exec_sincos (s : State) :
    exec .sincos s = answer (respond (sext64 (sinQ15 s.cfg (readI16 s.host.opA))) (sext64 (cosQ15 s.cfg (readI16 s.host.opA))) {}) s := rfl

theorem exec_atan2m (s : State) :
    exec .atan2m s = answer (polarResponse (polarOf s.cfg (readI32 s.host.opA) (readI32 s.host.opB))) s := rfl

theorem exec_recip32 (s : State) :
    exec .recip32 s = answer (respond (zext64 (recipValue (readU32 s.host.opA))) 0 { dz := decide (readU32 s.host.opA = 0) }) s := rfl

theorem exec_isqrt16 (s : State) :
    exec .isqrt16 s = answer (isqrtResponse s.cfg (readI32 s.host.opA)) s := rfl

theorem exec_sqrt16 (s : State) :
    exec .sqrt16 s = answer (sqrtResponse s.cfg (readI32 s.host.opA)) s := rfl

theorem exec_fdiv16 (s : State) :
    exec .fdiv16 s = answer (fdivResponse s (readI32 s.host.opA) (readI32 s.host.opB)) s := rfl

theorem exec_div32 (s : State) :
    exec .div32 s = answer (div32Response (readU32 s.host.opA) (readU32 s.host.opB)) s := rfl

theorem exec_sdiv32 (s : State) :
    exec .sdiv32 s = answer (sdiv32Response s (readI32 s.host.opA) (readI32 s.host.opB)) s := rfl

theorem exec_exp16 (s : State) :
    exec .exp16 s = answer (expResponse s.cfg (readI32 s.host.opA)) s := rfl

theorem exec_ln16 (s : State) :
    exec .ln16 s = answer (lnResponse s.cfg (readI32 s.host.opA)) s := rfl

/-- A `fmt` that names no format is an illegal command (30_encoding.md R48, R49). -/
theorem exec_of_noFormat {i : Instr} {n : Nat} (hi : i.fmt? = some n) (h : s.cfg.formats[n]? = none) :
    exec i s = answer illegalResponse s := by
  cases i <;> simp only [Instr.fmt?, Option.some.injEq, reduceCtorEq] at hi <;> subst hi <;> exact inFormat_of_none h _

/-- Every operation answers with some response, on every state. -/
theorem exec_answers (i : Instr) (s : State) : ∃ r, exec i s = answer r s := by
  cases hi : i.fmt? with
  | some n =>
    cases h : s.cfg.formats[n]? with
    | none => exact ⟨_, exec_of_noFormat hi h⟩
    | some f =>
      cases i <;> simp only [Instr.fmt?, Option.some.injEq, reduceCtorEq] at hi <;> subst hi <;>
        exact ⟨_, inFormat_of_some h _⟩
  | none => cases i <;> simp only [Instr.fmt?, reduceCtorEq] at hi <;> exact ⟨_, rfl⟩

end Sys2Proof.Machine
end

