-- ==== Sys2Proof/Laws/PerInstr.lean ====
section
/-! SUPPORT. Statements about each operation as syntax, one lemma per constructor. -/

namespace Sys2Proof.Laws.EncodingFields

/-- The encoded command carries the operation's opcode in bits 7:0, its format index in bits 11:8 and 0 above (30_encoding.md R41). -/
def Statement (i : Instr) : Prop :=
  i.wellFormed = true →
    (encode i).extractLsb' 0 8 = BitVec.ofNat 8 i.opcode ∧
    (encode i).extractLsb' 8 4 = BitVec.ofNat 4 (i.fmt?.getD 0) ∧
    (encode i).extractLsb' 12 20 = 0#20

theorem statement_of_fields {i : Instr} (h : i.wellFormed = true) :
    (encode i).extractLsb' 0 8 = BitVec.ofNat 8 i.opcode ∧
    (encode i).extractLsb' 8 4 = BitVec.ofNat 4 (i.fmt?.getD 0) ∧
    (encode i).extractLsb' 12 20 = 0#20 := by
  have h1 := opcode_lt i
  have h2 := fmt_lt_of_wellFormed h
  have h3 := encode_toNat h
  refine ⟨?_, ?_, ?_⟩ <;> apply BitVec.eq_of_toNat_eq <;>
    simp only [BitVec.extractLsb'_toNat, BitVec.toNat_ofNat, h3, Nat.shiftRight_eq_div_pow] <;> omega

theorem qadd (fmt : Nat) : Statement (.qadd fmt) := statement_of_fields

theorem qsub (fmt : Nat) : Statement (.qsub fmt) := statement_of_fields

theorem qmul (fmt : Nat) : Statement (.qmul fmt) := statement_of_fields

theorem qdiv (fmt : Nat) : Statement (.qdiv fmt) := statement_of_fields

theorem qabs (fmt : Nat) : Statement (.qabs fmt) := statement_of_fields

theorem qneg (fmt : Nat) : Statement (.qneg fmt) := statement_of_fields

theorem qone (fmt : Nat) : Statement (.qone fmt) := statement_of_fields

theorem qhalf (fmt : Nat) : Statement (.qhalf fmt) := statement_of_fields

theorem qfromint (fmt : Nat) : Statement (.qfromint fmt) := statement_of_fields

theorem qtoint (fmt : Nat) : Statement (.qtoint fmt) := statement_of_fields

theorem satadd (fmt : Nat) : Statement (.satadd fmt) := statement_of_fields

theorem satsub (fmt : Nat) : Statement (.satsub fmt) := statement_of_fields

theorem rshr : Statement .rshr := statement_of_fields

theorem narrow (fmt : Nat) : Statement (.narrow fmt) := statement_of_fields

theorem sincos : Statement .sincos := statement_of_fields

theorem atan2m : Statement .atan2m := statement_of_fields

theorem recip32 : Statement .recip32 := statement_of_fields

theorem isqrt16 : Statement .isqrt16 := statement_of_fields

theorem sqrt16 : Statement .sqrt16 := statement_of_fields

theorem fdiv16 : Statement .fdiv16 := statement_of_fields

theorem div32 : Statement .div32 := statement_of_fields

theorem sdiv32 : Statement .sdiv32 := statement_of_fields

theorem exp16 : Statement .exp16 := statement_of_fields

theorem ln16 : Statement .ln16 := statement_of_fields

end Sys2Proof.Laws.EncodingFields
end

