-- ==== Sys2Proof/Laws/Step.lean ====
section
/-! SUPPORT. Everything one step can do (70_reset_and_hazards.md R190, R194). -/

namespace Sys2Proof.Machine

variable {s t u : State} {r : Response}

theorem react_reset (h : s.host.resetIn = true) : react s = .next (setPending none s) := by
  simp only [react, h, if_true, resetEvent]

theorem react_take (h : s.host.resetIn = false) (hp : s.pending = some r) (hr : s.host.rspReady = true) :
    react s = takeResponse r s := by
  simp [react, h, hp, hr]

theorem react_hold (h : s.host.resetIn = false) (hp : s.pending = some r) (hr : s.host.rspReady = false) :
    react s = .next s := by
  simp [react, h, hp, hr, waitEvent]

theorem react_accept (h : s.host.resetIn = false) (hp : s.pending = none) (hv : s.host.reqValid = true) :
    react s = acceptRequest s := by
  simp [react, h, hp, hv]

theorem react_idle (h : s.host.resetIn = false) (hp : s.pending = none) (hv : s.host.reqValid = false) :
    react s = .next s := by
  simp [react, h, hp, hv, waitEvent]

theorem acceptRequest_of_decode {i : Instr} (h : decode s.host.cmd = .ok i) : acceptRequest s = exec i s := by
  simp only [acceptRequest, h]

theorem acceptRequest_of_error {e : DecodeError} (h : decode s.host.cmd = .error e) :
    acceptRequest s = answer illegalResponse s := by
  simp only [acceptRequest, h]

/-- Accepting a request gives the response of the decoded operation, or the response to an illegal command. -/
theorem acceptRequest_cases (s : State) :
    (∃ i r, decode s.host.cmd = .ok i ∧ exec i s = answer r s ∧ acceptRequest s = answer r s) ∨
    (acceptRequest s = answer illegalResponse s) := by
  cases h : decode s.host.cmd with
  | ok i =>
    obtain ⟨r, hr⟩ := exec_answers i s
    exact .inl ⟨i, r, rfl, hr, by rw [acceptRequest_of_decode h, hr]⟩
  | error e => exact .inr (acceptRequest_of_error h)

theorem step_of_wf (h : s.cfg.wf = true) : step s = afterStep (react s) := by
  simp only [step, cycle, h, if_true]

theorem step_of_not_wf (h : s.cfg.wf = false) : step s = .refused .noSuchInstance := by
  simp [step, cycle, h]

theorem step_next (h : step s = .next t) : s.cfg.wf = true ∧ ∃ u, react s = .next u ∧ t = advance u := by
  by_cases hw : s.cfg.wf = true
  · rw [step_of_wf hw] at h; exact ⟨hw, afterStep_next h⟩
  · rw [step_of_not_wf (by simpa using hw)] at h; cases h

/-- The five ways a step answers a next state. -/
theorem react_next_cases (h : react s = .next u) :
    (s.host.resetIn = true ∧ u = setPending none s) ∨
    (∃ r, s.host.resetIn = false ∧ s.pending = some r ∧ s.host.rspReady = true ∧
      u = recordResponse r (setPending none s)) ∨
    (∃ r, s.host.resetIn = false ∧ s.pending = some r ∧ s.host.rspReady = false ∧ u = s) ∨
    (∃ r, s.host.resetIn = false ∧ s.pending = none ∧ s.host.reqValid = true ∧
      acceptRequest s = answer r s ∧ u = setPending (some r) s) ∨
    (s.host.resetIn = false ∧ s.pending = none ∧ s.host.reqValid = false ∧ u = s) := by
  cases hr : s.host.resetIn with
  | true =>
    rw [react_reset hr] at h
    exact .inl ⟨rfl, by injection h with h; exact h.symm⟩
  | false =>
    cases hp : s.pending with
    | some r =>
      cases hy : s.host.rspReady with
      | true =>
        rw [react_take hr hp hy] at h
        obtain ⟨-, -, e⟩ | ⟨-, -, e⟩ | e := takeResponse_cases r s
        · rw [e] at h; cases h
        · rw [e] at h; cases h
        · rw [e] at h; injection h with h
          exact .inr (.inl ⟨r, rfl, rfl, rfl, h.symm⟩)
      | false =>
        rw [react_hold hr hp hy] at h; injection h with h
        exact .inr (.inr (.inl ⟨r, rfl, rfl, rfl, h.symm⟩))
    | none =>
      cases hv : s.host.reqValid with
      | true =>
        rw [react_accept hr hp hv] at h
        obtain ⟨i, r, -, -, e⟩ | e := acceptRequest_cases s
        · rw [e] at h; injection h with h
          exact .inr (.inr (.inr (.inl ⟨r, rfl, rfl, rfl, e, h.symm⟩)))
        · rw [e] at h; injection h with h
          exact .inr (.inr (.inr (.inl ⟨_, rfl, rfl, rfl, e, h.symm⟩)))
      | false =>
        rw [react_idle hr hp hv] at h; injection h with h
        exact .inr (.inr (.inr (.inr ⟨rfl, rfl, rfl, h.symm⟩)))

end Sys2Proof.Machine
end

