-- ==== Sys2Proof/Tests/Slice0.lean ====
section
/-! SUPPORT. The model's own tests: what WellFormed refuses, every constructor's word written out from the spec's encodings, one step of
each operation against the spec's vectors (95 to 98), and for every obligation with hypotheses a state that meets them. -/

set_option Elab.async false

open Sys2Proof Sys2Proof.Machine Sys2Proof.Claims

namespace Sys2Proof.Tests

/-- REFCFG under another overflow policy. -/
def policy (o : OverflowPolicy) : Cfg := { Cfg.ref with overflow := o }

/-- REFCFG under another rounding policy. -/
def rounding (m : RoundingPolicy) : Cfg := { Cfg.ref with rounding := m }

/-- A one-format configuration. -/
def oneFormat (f : Format) : Cfg := { Cfg.ref with formats := [f] }

/-- An idle instance to which the host offers the request. -/
def request (c : Cfg) (cmd : Command) (a b : Word) : State :=
  { State.reset with cfg := c, host := ⟨false, true, cmd, a, b, false⟩ }

/-- An instance that offers the response `r`, which the host takes when `ready`. -/
def offering (r : Response) (ready : Bool) : State :=
  { State.reset with pending := some r, host := ⟨false, false, 0, 0, 0, ready⟩ }

/-- One step answers this response. -/
def gives (c : Cfg) (cmd : Command) (a b r0 r1 : Word) (st : StatusWord) : Bool :=
  match step (request c cmd a b) with
  | .next t => t.pending == some ⟨r0, r1, st⟩
  | .fault _ => false
  | .refused _ => false

/-- One step answers this status, whatever the result words. -/
def status (c : Cfg) (cmd : Command) (a b : Word) : Option StatusWord :=
  match step (request c cmd a b) with
  | .next t => t.pending.map Response.status
  | .fault _ => none
  | .refused _ => none

/-- `s` takes a step to a next state. -/
def goesOn (s : State) : Bool :=
  match step s with
  | .next _ => true
  | .fault _ => false
  | .refused _ => false

/-! ### WellFormed (00_scope.md R6; 30_encoding.md R41, R48) -/

theorem test_ref_wf : Cfg.ref.wf = true := by decide
theorem test_wf_width : Format.wf ⟨24, 8, .signed⟩ = false := by decide
theorem test_wf_frac_signed : Format.wf ⟨16, 16, .signed⟩ = false := by decide
theorem test_wf_frac_signed_top : Format.wf ⟨16, 15, .signed⟩ = true := by decide
theorem test_wf_frac_unsigned : Format.wf ⟨16, 17, .unsigned⟩ = false := by decide
theorem test_wf_frac_unsigned_top : Format.wf ⟨16, 16, .unsigned⟩ = true := by decide
theorem test_wf_cordic_zero : Cfg.wf { Cfg.ref with cordicN := 0 } = false := by decide
theorem test_wf_cordic_25 : Cfg.wf { Cfg.ref with cordicN := 25 } = false := by decide
theorem test_wf_no_format : Cfg.wf { Cfg.ref with formats := [] } = false := by decide
theorem test_wf_17_formats : Cfg.wf { Cfg.ref with formats := List.replicate 17 ⟨8, 4, .signed⟩ } = false := by decide
theorem test_wf_bad_format : Cfg.wf (oneFormat ⟨8, 8, .signed⟩) = false := by decide
theorem test_wf_isqrt_9 : Cfg.wf { Cfg.ref with nrIsqrtIters := 9 } = false := by decide
theorem test_wf_fmt_field : Instr.wellFormed (.qadd 16) = false := by decide
theorem test_legal_fmt : Instr.legal Cfg.ref (.qadd 7) = true ∧ Instr.legal Cfg.ref (.qadd 8) = false := by decide

/-! ### Decoding: `zero[31:12] fmt[11:8] opcode[7:0]` (30_encoding.md R41, R47; 95_test_vectors.md section 5) -/

theorem test_decode_qadd : decode 0b00000000000000000000_0111_00000001 = .ok (.qadd 7) := by rfl
theorem test_decode_qsub : decode 0b00000000000000000000_0111_00000010 = .ok (.qsub 7) := by rfl
theorem test_decode_qmul : decode 0b00000000000000000000_0111_00000011 = .ok (.qmul 7) := by rfl
theorem test_decode_qdiv : decode 0b00000000000000000000_0111_00000100 = .ok (.qdiv 7) := by rfl
theorem test_decode_qabs : decode 0b00000000000000000000_0111_00000101 = .ok (.qabs 7) := by rfl
theorem test_decode_qneg : decode 0b00000000000000000000_0111_00000110 = .ok (.qneg 7) := by rfl
theorem test_decode_qone : decode 0b00000000000000000000_0111_00000111 = .ok (.qone 7) := by rfl
theorem test_decode_qhalf : decode 0b00000000000000000000_0111_00001000 = .ok (.qhalf 7) := by rfl
theorem test_decode_qfromint : decode 0b00000000000000000000_0111_00001001 = .ok (.qfromint 7) := by rfl
theorem test_decode_qtoint : decode 0b00000000000000000000_0111_00001010 = .ok (.qtoint 7) := by rfl
theorem test_decode_satadd : decode 0b00000000000000000000_0111_00010000 = .ok (.satadd 7) := by rfl
theorem test_decode_satsub : decode 0b00000000000000000000_0111_00010001 = .ok (.satsub 7) := by rfl
theorem test_decode_rshr : decode 0b00000000000000000000_0000_00010010 = .ok .rshr := by rfl
theorem test_decode_narrow : decode 0b00000000000000000000_0111_00010011 = .ok (.narrow 7) := by rfl
theorem test_decode_sincos : decode 0b00000000000000000000_0000_00100000 = .ok .sincos := by rfl
theorem test_decode_atan2m : decode 0b00000000000000000000_0000_00100001 = .ok .atan2m := by rfl
theorem test_decode_recip32 : decode 0b00000000000000000000_0000_00110000 = .ok .recip32 := by rfl
theorem test_decode_isqrt16 : decode 0b00000000000000000000_0000_00110001 = .ok .isqrt16 := by rfl
theorem test_decode_sqrt16 : decode 0b00000000000000000000_0000_00110010 = .ok .sqrt16 := by rfl
theorem test_decode_fdiv16 : decode 0b00000000000000000000_0000_00110011 = .ok .fdiv16 := by rfl
theorem test_decode_div32 : decode 0b00000000000000000000_0000_01000000 = .ok .div32 := by rfl
theorem test_decode_sdiv32 : decode 0b00000000000000000000_0000_01000001 = .ok .sdiv32 := by rfl
theorem test_decode_exp16 : decode 0b00000000000000000000_0000_01010000 = .ok .exp16 := by rfl
theorem test_decode_ln16 : decode 0b00000000000000000000_0000_01010001 = .ok .ln16 := by rfl
theorem test_decode_fmt_without_format : decode 0x00000912 = .error (.fmtNotZero 0x12) := by rfl
theorem test_decode_unassigned : decode 0x00000000 = .error (.unassignedOpcode 0) := by rfl
theorem test_decode_zero_field : decode 0x00001001 = .error .zeroFieldNotZero := by rfl
theorem test_table_word : decodeTableWord 32 0x0000070A = some (.qtoint 7) := by rfl

/-! ### One step of each operation (96 to 98, section 3; the row is named by its note) -/

/-- Q8.8 127 + 2 clamps to the maximum, under policy trap too. -/
theorem test_satadd : gives (policy .trap) 0x210 0x7F00 0x200 0x7FFF 0 0x08 = true := by decide +kernel
/-- Bits 63:16 of `A` ignored: -1.0 + 1.0. -/
theorem test_satadd_high_bits : gives Cfg.ref 0x210 0xABCD00000000FF00 0x100 0 0 0x00 = true := by decide +kernel
/-- UQ8.8 1.0 - 1.5 clamps to 0. -/
theorem test_satsub : gives Cfg.ref 0x311 0x100 0x180 0 0 0x08 = true := by decide +kernel
/-- Q32.32 min - 1. -/
theorem test_satsub_q32 : gives Cfg.ref 0x711 0x8000000000000000 1 0x8000000000000000 0 0x08 = true := by decide +kernel
/-- Rounding floor of -5/2; only `B[5:0]` is read. -/
theorem test_rshr : gives (rounding .floor) 0x12 0xFFFFFFFFFFFFFFFB 0xFFFFFFFFFFFFFFC1 0xFFFFFFFFFFFFFFFD 0 0 = true := by decide +kernel
/-- Rounding nearest of the largest operand. -/
theorem test_rshr_nearest : gives (rounding .nearest) 0x12 0x7FFFFFFFFFFFFFFF 1 0x4000000000000000 0 0 = true := by decide +kernel
/-- Q4.4, wrap: 200 - 256 = -56. -/
theorem test_narrow : gives (policy .wrap) 0x413 0xC8 0 0xFFFFFFFFFFFFFFC8 0 0x08 = true := by decide +kernel
/-- Q4.4, trap. -/
theorem test_narrow_trap : status (policy .trap) 0x413 0xC8 0 = some 0x18 := by decide +kernel
/-- Q4.4 7.0 + 2.0, wrap: -7.0. -/
theorem test_qadd : gives (policy .wrap) 0x401 0x70 0x20 0xFFFFFFFFFFFFFF90 0 0x08 = true := by decide +kernel
/-- Q16.16 max + 1 ulp, trap. -/
theorem test_qadd_trap : status (policy .trap) 0x001 0x7FFFFFFF 1 = some 0x18 := by decide +kernel
/-- Q1.15 0 - (-1.0) is not representable. -/
theorem test_qsub : gives Cfg.ref 0x102 0 0x8000 0x7FFF 0 0x08 = true := by decide +kernel
/-- UQ8.8 1.0 - 1.5, wrap. -/
theorem test_qsub_wrap : gives (policy .wrap) 0x302 0x100 0x180 0xFF80 0 0x08 = true := by decide +kernel
/-- 1.5 × -2.25. -/
theorem test_qmul : gives Cfg.ref 0x003 0x18000 0xFFFDC000 0xFFFFFFFFFFFCA000 0 0 = true := by decide +kernel
/-- -1.5 ulp, floor: -2. -/
theorem test_qmul_floor : gives (rounding .floor) 0x003 0xFFFE8000 1 0xFFFFFFFFFFFFFFFE 0 0 = true := by decide +kernel
/-- -7 / 2 = -3.5. -/
theorem test_qdiv : gives Cfg.ref 0x004 0xFFF90000 0x20000 0xFFFFFFFFFFFC8000 0 0 = true := by decide +kernel
/-- UQ8.8 x / 0: all ones. -/
theorem test_qdiv_zero : gives Cfg.ref 0x304 0x1234 0 0xFFFF 0 0x01 = true := by decide +kernel
/-- abs(min) wraps to min. -/
theorem test_qabs : gives (policy .wrap) 0x005 0x80000000 0 0xFFFFFFFF80000000 0 0x08 = true := by decide +kernel
/-- Unsigned: unchanged. -/
theorem test_qabs_unsigned : gives Cfg.ref 0x305 0xFFFF 0 0xFFFF 0 0 = true := by decide +kernel
/-- UQ8.8 -(1.0) overflows to 0. -/
theorem test_qneg : gives Cfg.ref 0x306 0x100 0 0 0 0x08 = true := by decide +kernel
/-- -(1.5). -/
theorem test_qneg_signed : gives Cfg.ref 0x006 0x18000 0 0xFFFFFFFFFFFE8000 0 0 = true := by decide +kernel
/-- one() of UQ0.8. -/
theorem test_qone : gives Cfg.ref 0x507 0 0 0xFF 0 0 = true := by decide +kernel
/-- one() of Q32.32. -/
theorem test_qone_q32 : gives Cfg.ref 0x707 0 0 0x100000000 0 0 = true := by decide +kernel
/-- half() of Q1.15. -/
theorem test_qhalf : gives Cfg.ref 0x108 0 0 0x4000 0 0 = true := by decide +kernel
/-- The contract's Q8.8 row: from_int(100) = 25600. -/
theorem test_qfromint : gives Cfg.ref 0x209 100 0 0x6400 0 0 = true := by decide +kernel
/-- The contract's Q8.8 row: to_int of the maximum is 127. -/
theorem test_qtoint : gives Cfg.ref 0x20A 0x7FFF 0 127 0 0 = true := by decide +kernel
/-- 60.002°: sin 28376, cos 16386. -/
theorem test_sincos : gives Cfg.ref 0x20 0x2AAB 0 0x6ED8 0x4002 0 = true := by decide +kernel
/-- Nearest, -179.995°: sin -3, cos -32768. -/
theorem test_sincos_left : gives (rounding .nearest) 0x20 0x8001 0 0xFFFFFFFFFFFFFFFD 0xFFFFFFFFFFFF8000 0 = true := by decide +kernel
/-- Angle 24574 (134.989°), magnitude 92681. -/
theorem test_atan2m : gives Cfg.ref 0x21 0x10000 0xFFFFFFFFFFFF0000 0x5FFE 0x16A09 0 = true := by decide +kernel
/-- Angle -32768, magnitude 2147483644. -/
theorem test_atan2m_min : gives Cfg.ref 0x21 1 0xFFFFFFFF80000000 0xFFFFFFFFFFFF8000 0x7FFFFFFC 0 = true := by decide +kernel
/-- `2^32 / 5`. -/
theorem test_recip32 : gives Cfg.ref 0x30 5 0 0x33333333 0 0 = true := by decide +kernel
/-- 0: maximum, `DZ`. -/
theorem test_recip32_zero : gives Cfg.ref 0x30 0 0 0xFFFFFFFF 0 0x01 = true := by decide +kernel
/-- 1.5: 53502. -/
theorem test_isqrt16 : gives Cfg.ref 0x31 0x18000 0 0xD0FE 0 0 = true := by decide +kernel
/-- The minimum: negative. -/
theorem test_isqrt16_negative : gives Cfg.ref 0x31 0x80000000 0 0x7FFFFFFF 0 0x02 = true := by decide +kernel
/-- 25.0: 327550. -/
theorem test_sqrt16 : gives Cfg.ref 0x32 0x190000 0 0x4FF7E 0 0 = true := by decide +kernel
/-- One iteration: 81920. -/
theorem test_sqrt16_once : gives { Cfg.ref with nrIsqrtIters := 1 } 0x32 0x20000 0 0x14000 0 0 = true := by decide +kernel
/-- 7/3 through the reciprocal: 152915. -/
theorem test_fdiv16 : gives Cfg.ref 0x33 0x70000 0x30000 0x25553 0 0 = true := by decide +kernel
/-- 1.0 / -32768.0 = -2 raw. -/
theorem test_fdiv16_negative : gives Cfg.ref 0x33 0x10000 0x80000000 0xFFFFFFFFFFFFFFFE 0 0 = true := by decide +kernel
theorem test_div32 : gives Cfg.ref 0x40 0xFFFFFFFF 0x10000 0xFFFF 0 0 = true := by decide +kernel
theorem test_div32_zero : gives Cfg.ref 0x40 1 0 0xFFFFFFFF 0 0x01 = true := by decide +kernel
theorem test_sdiv32 : gives Cfg.ref 0x41 0x64 0xFFFFFFFFFFFFFFF6 0xFFFFFFFFFFFFFFF6 0 0 = true := by decide +kernel
/-- 2^31 does not fit: saturate. -/
theorem test_sdiv32_overflow : gives Cfg.ref 0x41 0xFFFFFFFF80000000 0xFFFFFFFFFFFFFFFF 0x7FFFFFFF 0 0x08 = true := by decide +kernel
/-- x = -0.5, k = -1: 39748. -/
theorem test_exp16 : gives Cfg.ref 0x50 0xFFFF8000 0 0x9B44 0 0 = true := by decide +kernel
/-- x = -12, k = -17: 0 and `RO`. -/
theorem test_exp16_under : gives Cfg.ref 0x50 0xFFF40000 0 0 0 0x04 = true := by decide +kernel
/-- x = 0.5: -45426. -/
theorem test_ln16 : gives Cfg.ref 0x51 0x8000 0 0xFFFFFFFFFFFF4E8E 0 0 = true := by decide +kernel
/-- x = 1.5, floor: 26570. -/
theorem test_ln16_floor : gives (rounding .floor) 0x51 0x18000 0 0x67CA 0 0 = true := by decide +kernel
/-- An illegal command: the contract's brad32 opcode 0x20 with `fmt` 9 (95). -/
theorem test_illegal : gives Cfg.ref 0x920 0x1555 0 0 0 0x20 = true := by decide +kernel
/-- `fmt` 8 names no format of REFCFG (30 R48). -/
theorem test_illegal_fmt : gives Cfg.ref 0x801 1 1 0 0 0x20 = true := by decide +kernel
/-- The word the host places is the one the next step runs. -/
theorem test_withFetchWord : goesOn (State.reset.withFetchWord 32 0x51) = true := by decide +kernel

/-! ### Witnesses: states that meet the hypotheses of the obligations -/

/-- Where a value stands to a format's range. -/
inductive Clause where
  | below
  | inside
  | above
deriving DecidableEq, Repr

def clauseOf (f : Format) (v : Int) : Clause :=
  if v < lowest f then .below else if highest f < v then .above else .inside

/-- Under the policy `o` the operands `a`, `b` put the value `v` into the clause `c`, in the legal format `f` that `fmt` names. -/
def meets (o : OverflowPolicy) (fmt : Nat) (f : Format) (v : State → Int) (a b : Word) (c : Clause) : Bool :=
  let s := request (policy o) 0 a b
  decide (s.cfg.formats[fmt]? = some f) && f.wf && decide (s.cfg.overflow = o) && decide (clauseOf f (v s) = c)

def q88 : Format := ⟨16, 8, .signed⟩
def uq88 : Format := ⟨16, 8, .unsigned⟩

def narrowValue (s : State) : Int := i64 s.host.opA
def sumIn (f : Format) (s : State) : Int := rawOf f s.host.opA + rawOf f s.host.opB
def differenceIn (f : Format) (s : State) : Int := rawOf f s.host.opA - rawOf f s.host.opB
def productIn (f : Format) (s : State) : Int :=
  rshiftRound s.cfg.rounding (rawOf f s.host.opA * rawOf f s.host.opB) f.frac
def quotientIn (f : Format) (s : State) : Int := (rawOf f s.host.opA * 2 ^ f.frac).tdiv (rawOf f s.host.opB)
def absIn (f : Format) (s : State) : Int := |rawOf f s.host.opA|
def negIn (f : Format) (s : State) : Int := -rawOf f s.host.opA
def scaledIn (f : Format) (s : State) : Int := i64 s.host.opA * 2 ^ f.frac

/-- 128 and -129 do not fit 8 bits, 127 and -128 do (96 section 3.1). -/
theorem witness_NarrowFollowsTheOverflowPolicy (o : OverflowPolicy) :
    meets o 4 ⟨8, 4, .signed⟩ narrowValue 127 0 .inside = true ∧ meets o 4 ⟨8, 4, .signed⟩ narrowValue 128 0 .above = true ∧
    meets o 4 ⟨8, 4, .signed⟩ narrowValue (-128) 0 .inside = true ∧ meets o 4 ⟨8, 4, .signed⟩ narrowValue (-129) 0 .below = true := by
  cases o <;> decide +kernel

theorem witness_SaturatingAddAndSubtractClamp (o : OverflowPolicy) :
    meets o 2 q88 (sumIn q88) 0x7FFE 1 .inside = true ∧ meets o 2 q88 (sumIn q88) 0x7FFF 1 .above = true ∧
    meets o 2 q88 (sumIn q88) 0x8000 0xFFFF .below = true ∧ meets o 3 uq88 (differenceIn uq88) 1 1 .inside = true ∧
    meets o 3 uq88 (differenceIn uq88) 0 1 .below = true ∧ meets o 2 q88 (differenceIn q88) 0x7FFF 0xFFFF .above = true := by
  cases o <;> decide +kernel

theorem witness_QaddAndQsubFollowTheOverflowPolicy (o : OverflowPolicy) :
    meets o 3 uq88 (sumIn uq88) 0xFFFE 1 .inside = true ∧ meets o 3 uq88 (sumIn uq88) 0xFFFF 1 .above = true ∧
    meets o 2 q88 (sumIn q88) 0x8000 0xFFFF .below = true ∧ meets o 2 q88 (differenceIn q88) 0x8001 1 .inside = true ∧
    meets o 2 q88 (differenceIn q88) 0x8000 1 .below = true ∧ meets o 2 q88 (differenceIn q88) 0 0x8000 .above = true := by
  cases o <;> decide +kernel

theorem witness_QmulRescalesTheExactProduct (o : OverflowPolicy) :
    meets o 2 q88 (productIn q88) 0x7FFF 0x100 .inside = true ∧ meets o 2 q88 (productIn q88) 0x8000 0xFF00 .above = true ∧
    meets o 2 q88 (productIn q88) 0x8000 0x102 .below = true := by
  cases o <;> decide +kernel

theorem witness_QdivDividesTowardZero (o : OverflowPolicy) :
    meets o 2 q88 (quotientIn q88) 0x7FFF 0x100 .inside = true ∧ meets o 2 q88 (quotientIn q88) 0x8000 0xFF00 .above = true ∧
    meets o 2 q88 (quotientIn q88) 0x8000 0xFF .below = true ∧ rawOf q88 0xFF ≠ 0 ∧ rawOf q88 0x10000 = 0 ∧
    rawOf q88 0xFFFF < 0 ∧ 0 ≤ rawOf q88 0 := by
  cases o <;> decide +kernel

theorem witness_QabsAndQnegFollowTheOverflowPolicy (o : OverflowPolicy) :
    meets o 2 q88 (absIn q88) 0x8001 0 .inside = true ∧ meets o 2 q88 (absIn q88) 0x8000 0 .above = true ∧
    meets o 2 q88 (negIn q88) 0x7FFF 0 .inside = true ∧ meets o 2 q88 (negIn q88) 0x8000 0 .above = true ∧
    meets o 3 uq88 (negIn uq88) 1 0 .below = true := by
  cases o <;> decide +kernel

theorem witness_QfromintScalesTheInteger (o : OverflowPolicy) :
    meets o 2 q88 (scaledIn q88) 127 0 .inside = true ∧ meets o 2 q88 (scaledIn q88) 128 0 .above = true ∧
    meets o 2 q88 (scaledIn q88) (-128) 0 .inside = true ∧ meets o 2 q88 (scaledIn q88) (-129) 0 .below = true := by
  cases o <;> decide +kernel

/-- Both constants fit in Q8.8; `2^15` does not in Q1.15; a format with `F = 0`. -/
theorem witness_QoneAndQhalfAreTheConstants :
    ((2 : Int) ^ 8 ≤ highest q88 ∧ q88.wf = true ∧ Cfg.ref.formats[2]? = some q88) ∧
    (highest ⟨16, 15, .signed⟩ < 2 ^ 15 ∧ Cfg.ref.formats[1]? = some ⟨16, 15, .signed⟩) ∧
    (Format.wf ⟨8, 0, .signed⟩ = true ∧ (oneFormat ⟨8, 0, .signed⟩).wf = true ∧
      (oneFormat ⟨8, 0, .signed⟩).formats[0]? = some ⟨8, 0, .signed⟩) := by decide +kernel

theorem witness_QtointRoundsByToIntMode :
    Cfg.ref.formats[2]? = some q88 ∧ q88.wf = true ∧ q88.sign = .signed ∧
    Cfg.ref.formats[3]? = some uq88 ∧ uq88.wf = true ∧ uq88.sign = .unsigned := by decide

/-- The narrowest formats that hold 1.0: `F = W - 2` signed, `F = W - 1` unsigned. -/
theorem witness_QformatLawsOfOneAndZero :
    ((oneFormat ⟨16, 14, .signed⟩).formats[0]? = some ⟨16, 14, .signed⟩ ∧ Format.wf ⟨16, 14, .signed⟩ = true ∧
      OneFits ⟨16, 14, .signed⟩) ∧
    ((oneFormat ⟨8, 7, .unsigned⟩).formats[0]? = some ⟨8, 7, .unsigned⟩ ∧ Format.wf ⟨8, 7, .unsigned⟩ = true ∧
      OneFits ⟨8, 7, .unsigned⟩) := by
  refine ⟨⟨by decide, by decide, ?_⟩, by decide, by decide, ?_⟩ <;> simp [OneFits]

theorem witness_ResolveFollowsThePolicy :
    q88.wf = true ∧ clauseOf q88 32767 = .inside ∧ clauseOf q88 (-32768) = .inside ∧ clauseOf q88 32768 = .above ∧
    clauseOf q88 (-32769) = .below := by decide +kernel

theorem witness_ResultWordReadsBackAsItsValue :
    q88.wf = true ∧ lowest q88 ≤ -32768 ∧ (-32768 : Int) ≤ highest q88 ∧ uq88.wf = true ∧ lowest uq88 ≤ 65535 ∧
    (65535 : Int) ≤ highest uq88 := by decide +kernel

theorem witness_RshrRoundsAndAlwaysFits :
    1 ≤ ((request Cfg.ref 0x12 5 0x41).host.opB.setWidth 6).toNat ∧
    ((request Cfg.ref 0x12 5 0x40).host.opB.setWidth 6).toNat = 0 := by decide

theorem witness_DecodeOfEncodeIsTheInstruction :
    Instr.wellFormed (.narrow 15) = true ∧ Instr.wellFormed (.qadd 0) = true ∧ Instr.wellFormed .ln16 = true := by decide

theorem witness_EncodeOfDecodeIsTheCommand : decode 0x00000F13 = .ok (.narrow 15) ∧ decode 0x00000051 = .ok .ln16 :=
  ⟨rfl, rfl⟩

theorem witness_ReservedEncodingsAreIllegal :
    ((0x00000022#32).extractLsb' 0 8).toNat ∉ formatOpcodes ++ plainOpcodes ∧ (0x00001001#32).extractLsb' 12 20 ≠ 0#20 := by decide

/-- An illegal command offered; an `ILL` response taken by a host that stops, and by one that goes on. -/
theorem witness_IllegalCommandsAnswerIllAndNothingElse :
    (let s := request Cfg.ref 0 1 2
     s.cfg.wf = true ∧ s.host.resetIn = false ∧ s.pending = none ∧ s.host.reqValid = true ∧
      legalCommand s.cfg s.host.cmd = false) ∧
    (let s := offering ⟨0, 0, 0x20⟩ true
     s.cfg.wf = true ∧ s.host.resetIn = false ∧ s.pending = some ⟨0, 0, 0x20⟩ ∧ s.host.rspReady = true ∧ s.stopOnIll = true) ∧
    (let s := { offering ⟨0, 0, 0x20⟩ true with stopOnIll := false }
     s.cfg.wf = true ∧ s.host.resetIn = false ∧ s.pending = some ⟨0, 0, 0x20⟩ ∧ s.host.rspReady = true ∧
      s.stopOnIll = false) := by decide

theorem witness_StepRunsTheDecodedInstruction :
    (∃ t, let s := request Cfg.ref 0x12 5 1
      s.cfg.wf = true ∧ s.host.resetIn = false ∧ s.pending = none ∧ s.host.reqValid = true ∧
      decode s.host.cmd = .ok .rshr ∧ exec .rshr s = .next t) ∧
    State.reset.script = [] ∧
    ({ State.reset with script := [State.reset.host] } : State).script = State.reset.host :: [] :=
  ⟨⟨_, by decide, rfl, rfl, rfl, rfl, rfl⟩, rfl, rfl⟩

theorem witness_ResponseDependsOnRequestAndConfigurationOnly :
    let s := request Cfg.ref 0x12 5 1
    let t := { s with draws := 7, responses := [⟨1, 2, 0⟩], stopOnTrap := false }
    s.cfg = t.cfg ∧ s.host.cmd = t.host.cmd ∧ s.host.opA = t.host.opA ∧ s.host.opB = t.host.opB ∧ s ≠ t := by decide

theorem witness_OperandBitsAboveTheWidthAreIgnored :
    let s := request Cfg.ref 0x210 0x7F00 0x200
    widthOf s.cfg (.satadd 2) = 16 ∧
    s.host.opA.toNat % 2 ^ (bitsRead 16 (.satadd 2)).1 = (0xABCD000000007F00 : Word).toNat % 2 ^ (bitsRead 16 (.satadd 2)).1 ∧
    s.host.opB.toNat % 2 ^ (bitsRead 16 (.satadd 2)).2 = (0x10200 : Word).toNat % 2 ^ (bitsRead 16 (.satadd 2)).2 := by decide

theorem witness_StatusValuesAreThoseOfTheTable :
    Instr.legal Cfg.ref (.qadd 7) = true ∧ Instr.fmt? (.qadd 8) = some 8 ∧ Cfg.ref.formats.length ≤ 8 := by decide

theorem witness_StepKeepsTheInvariant :
    (request Cfg.ref 0x12 5 1).inv = true ∧ goesOn (request Cfg.ref 0x12 5 1) = true ∧
    (offering ⟨1, 0, 0x08⟩ true).inv = true ∧ goesOn (offering ⟨1, 0, 0x08⟩ true) = true := by decide +kernel

theorem witness_ConfigurationIsNeverWritten : goesOn State.reset = true := by decide

theorem witness_AssertedResetDropsTheTransaction :
    let s := { offering ⟨1, 2, 0⟩ true with host := ⟨true, true, 1, 0, 0, true⟩, script := [State.reset.host] }
    s.cfg.wf = true ∧ s.host.resetIn = true ∧ s.pending = some ⟨1, 2, 0⟩ ∧ (advance s).host.resetIn = false := by decide

theorem witness_HandshakeFollowsItsRules :
    Cfg.ref.wf = true ∧
    (let s := request Cfg.ref 1 2 3
     s.cfg = Cfg.ref ∧ s.host.resetIn = false ∧ s.pending = none ∧ s.host.reqValid = true ∧
      (advance s).host.resetIn = false) ∧
    (State.reset.host.resetIn = false ∧ State.reset.pending = none ∧ State.reset.host.reqValid = false) ∧
    (let s := offering ⟨1, 2, 0x01⟩ false
     s.host.resetIn = false ∧ s.pending = some ⟨1, 2, 0x01⟩ ∧ s.host.rspReady = false ∧
      (advance s).host.resetIn = false) ∧
    (let s := offering ⟨1, 2, 0x01⟩ true
     s.host.resetIn = false ∧ s.pending = some ⟨1, 2, 0x01⟩ ∧ s.host.rspReady = true ∧
      hasTrap ⟨1, 2, 0x01⟩ = false ∧ hasIll ⟨1, 2, 0x01⟩ = false) := by decide

/-- An accepted request, a response taken, and an idle step. -/
theorem witness_OneResponseForEachAcceptedRequest :
    (let s := request Cfg.ref 0x12 5 1
     s.host.resetIn = false ∧ goesOn s = true ∧ (reqReady s && s.host.reqValid) = true) ∧
    (let s := offering ⟨1, 2, 0x01⟩ true
     s.host.resetIn = false ∧ goesOn s = true ∧ (reqReady s && s.host.reqValid) = false) ∧
    (State.reset.host.resetIn = false ∧ goesOn State.reset = true ∧
      (reqReady State.reset && State.reset.host.reqValid) = false) := by decide +kernel

theorem witness_TrapIsAFaultOfTheHostAlone :
    (let s := offering ⟨1, 2, 0x18⟩ true
     s.cfg.wf = true ∧ s.host.resetIn = false ∧ s.pending = some ⟨1, 2, 0x18⟩ ∧ hasTrap ⟨1, 2, 0x18⟩ = true ∧
      s.host.rspReady = true ∧ s.stopOnTrap = true) ∧
    (let s := { offering ⟨1, 2, 0x18⟩ true with stopOnTrap := false }
     s.cfg.wf = true ∧ s.host.resetIn = false ∧ s.pending = some ⟨1, 2, 0x18⟩ ∧ hasTrap ⟨1, 2, 0x18⟩ = true ∧
      s.host.rspReady = true ∧ s.stopOnTrap = false ∧ hasIll ⟨1, 2, 0x18⟩ = false) ∧
    status (policy .trap) 0x413 0xC8 0 = some 0x18 := by decide +kernel

/-- A host that has taken a trap, when a reset arrives. -/
theorem witness_TrapRecordIsSticky :
    let s := { State.reset with responses := [⟨1, 2, 0x18⟩], host := ⟨true, false, 0, 0, 0, false⟩ }
    s.trapTaken = true ∧ goesOn s = true := by decide

theorem witness_HostThatGoesOnIsNeverStopped :
    let s := { State.reset with stopOnTrap := false, stopOnIll := false }
    s.cfg.wf = true ∧ s.hostGoesOn = true := by decide

/-- One ill-formed configuration for each check. -/
theorem witness_IllFormedConfigurationIsRefused :
    ({ Cfg.ref with cordicN := 0 } : Cfg).cordicN = 0 ∧ 24 < ({ Cfg.ref with cordicN := 25 } : Cfg).cordicN ∧
    8 < ({ Cfg.ref with nrIsqrtIters := 9 } : Cfg).nrIsqrtIters ∧ ({ Cfg.ref with formats := [] } : Cfg).formats = [] ∧
    16 < ({ Cfg.ref with formats := List.replicate 17 q88 } : Cfg).formats.length ∧
    (⟨24, 8, .signed⟩ : Format) ∈ (oneFormat ⟨24, 8, .signed⟩).formats ∧ (24 : Nat) ∉ [8, 16, 32, 64] ∧
    (⟨16, 17, .unsigned⟩ : Format).width < (⟨16, 17, .unsigned⟩ : Format).frac ∧
    (⟨16, 16, .signed⟩ : Format).width ≤ (⟨16, 16, .signed⟩ : Format).frac := by decide

theorem witness_RoundingShiftRoundsByItsMode : ∃ s : Nat, 1 ≤ s := ⟨1, le_refl 1⟩

/-- The spec's row -7 by 2 bits: floor -2, ceil -1, truncate -1, nearest -2. -/
theorem test_rshiftRound :
    [RoundingPolicy.floor, .ceil, .truncate, .nearest].map (rshiftRound · (-7) 2) = [-2, -1, -1, -2] := by decide

/-- The ends of the range of angles, and ±90°, where under nearest the clamp bites. -/
theorem witness_SincosOfOppositeAngles :
    i16 1 + i16 0xFFFF = 0 ∧ i16 1 ≠ 0 ∧ i16 0x7FFF + i16 0x8001 = 0 ∧ i16 0 + i16 0 = 0 ∧
    i16 0x4000 + i16 0xC000 = 0 ∧ i16 0x4000 ≠ 0 := by decide

/-- The five axis cases and a vector of each half plane, with the most negative component. -/
theorem witness_Atan2mVectorsTheFoldedPair :
    i32 0 = 0 ∧ 0 < i32 1 ∧ i32 0xFFFFFFFF < 0 ∧ i32 0x80000000 = -(2 ^ 31) ∧ i32 0x7FFFFFFF = 2 ^ 31 - 1 ∧
    i32 0x80000000 ≠ 0 := by decide

theorem witness_Atan2mOfAMirroredVector :
    i32 1 + i32 0xFFFFFFFF = 0 ∧ i32 1 ≠ 0 ∧ i32 0x7FFFFFFF + i32 0x80000001 = 0 ∧ i32 0 + i32 0 = 0 := by decide

theorem witness_CordicMeetsItsTestPoints :
    (request Cfg.ref 0x20 8192 0).cfg.cordicN = 16 ∧ (request Cfg.ref 0x20 8192 0).host.opA = 8192 ∧
    (request Cfg.ref 0x21 0 1).host.opA = 0 ∧ (request Cfg.ref 0x21 0 1).host.opB = 1 ∧
    (request Cfg.ref 0x21 0 (wordOf (-1))).host.opB = wordOf (-1) := by decide

theorem witness_Recip32IsTheExactFloor : u32 0 = 0 ∧ u32 0x100000001 = 1 ∧ 2 ≤ u32 2 ∧ 2 ≤ u32 0xFFFFFFFF := by decide

theorem witness_InverseSquareRootRefinesItsSeed :
    i32 0x80000000 < 0 ∧ i32 0xFFFFFFFF < 0 ∧ i32 0x100000000 = 0 ∧ 0 < i32 1 ∧ 0 < i32 0x7FFFFFFF := by decide

theorem witness_SquareRootsOfPowersOfFourAreExact : i32 1 = 4 ^ 0 ∧ i32 0x40000000 = 4 ^ 15 := by decide

/-- Zero divisors of both signs, and quotients inside, above and below with a reciprocal that meets R120. -/
theorem witness_Fdiv16DividesThroughTheReciprocal :
    i32 0x100000000 = 0 ∧ i32 0xFFFFFFFF < 0 ∧ 0 ≤ i32 0 ∧
    IsReciprocal (i32 1).natAbs 0xFFFFFFFF ∧ IsReciprocal (i32 0x80000000).natAbs 2 ∧
    clauseOf signed32 (rshiftRound .truncate (|i32 0x8000| * 0xFFFFFFFF) 16) = .inside ∧ (i32 0x8000 < 0 ↔ i32 1 < 0) ∧
    clauseOf signed32 (rshiftRound .truncate (|i32 0x8001| * 0xFFFFFFFF) 16) = .above ∧ (i32 0x8001 < 0 ↔ i32 1 < 0) ∧
    clauseOf signed32 (-rshiftRound .truncate (|i32 0xFFFF7FFE| * 0xFFFFFFFF) 16) = .below ∧
      ¬(i32 0xFFFF7FFE < 0 ↔ i32 1 < 0) := by
  refine ⟨by decide, by decide, by decide, ⟨?_, ?_⟩, ⟨?_, ?_⟩, by decide +kernel, by decide, by decide +kernel, by decide,
    by decide +kernel, by decide⟩ <;> decide +kernel

theorem witness_Fdiv16ByOneIsTheDividend : i32 0x10000 = 0x10000 := by decide

theorem witness_RestoringDivisionIsTheExactFloor :
    u32 0x100000000 = 0 ∧ u32 1 ≠ 0 ∧ u32 0xFFFFFFFF ≠ 0 ∧ (0xFFFFFFFF : Nat) < 2 ^ 32 ∧ (0 : Nat) < 1 := by decide

theorem witness_Sdiv32DividesTowardZero (o : OverflowPolicy) :
    (request (policy o) 0x41 0 0).cfg.overflow = o ∧ i32 0 = 0 ∧ i32 0xFFFFFFFF < 0 ∧ i32 0xFFFFFFFF ≠ 0 ∧
    clauseOf signed32 ((i32 0x80000000).tdiv (i32 0xFFFFFFFF)) = .above ∧
    clauseOf signed32 ((i32 0x80000000).tdiv (i32 1)) = .inside := by
  cases o <;> decide +kernel

/-- `k` at the ends of its ranges: 704108 gives 16 and 704107 gives 15; -749535 gives -17 and -749534 gives -16 (98 section 3). -/
theorem witness_Exp16EvaluatesThePolynomial :
    (15 : Int) < (i32 704108 * 94548 + 2 ^ 31) / 2 ^ 32 ∧ (i32 704107 * 94548 + 2 ^ 31) / 2 ^ 32 ≤ (15 : Int) ∧
    (i32 (-749535) * 94548 + 2 ^ 31) / 2 ^ 32 < (-16 : Int) ∧ (-16 : Int) ≤ (i32 (-749534) * 94548 + 2 ^ 31) / 2 ^ 32 ∧
    gives Cfg.ref 0x50 681390 0 0x7FFFFFFF 0 0x04 = true ∧ status Cfg.ref 0x50 681389 0 = some 0x00 := by decide +kernel

theorem witness_Exp16RangeOverflowThresholds :
    681390 ≤ i32 681390 ∧ i32 (-749535) ≤ -749535 ∧ -749535 < i32 (-749534) ∧ i32 681389 < 681390 := by decide

theorem witness_Ln16SumsTheSeries : i32 0 ≤ 0 ∧ i32 0x80000000 ≤ 0 ∧ 0 < i32 1 ∧ 0 < i32 0x7FFFFFFF := by decide

theorem witness_ExpInvertsLnAtPowersOfTwo : i32 1 = 2 ^ 0 ∧ i32 0x40000000 = 2 ^ 30 := by decide

end Sys2Proof.Tests
end

section
/-! SUPPORT. What an operation's response is computed from, and which configurations a step refuses (00_scope.md R6, R7). -/

namespace Sys2Proof

/-- The configuration with another iteration count for the reciprocal (00_scope.md R6). -/
def Cfg.withRecipIters (c : Cfg) (n : Nat) : Cfg := { c with nrRecipIters := n }

@[simp] theorem Cfg.withRecipIters_overflow (c : Cfg) (n : Nat) : (c.withRecipIters n).overflow = c.overflow := rfl
@[simp] theorem Cfg.withRecipIters_rounding (c : Cfg) (n : Nat) : (c.withRecipIters n).rounding = c.rounding := rfl
@[simp] theorem Cfg.withRecipIters_cordicN (c : Cfg) (n : Nat) : (c.withRecipIters n).cordicN = c.cordicN := rfl
@[simp] theorem Cfg.withRecipIters_formats (c : Cfg) (n : Nat) : (c.withRecipIters n).formats = c.formats := rfl
@[simp] theorem Cfg.withRecipIters_nrIsqrtIters (c : Cfg) (n : Nat) :
    (c.withRecipIters n).nrIsqrtIters = c.nrIsqrtIters := rfl
@[simp] theorem Cfg.withRecipIters_toIntMode (c : Cfg) (n : Nat) : (c.withRecipIters n).toIntMode = c.toIntMode := rfl
@[simp] theorem Cfg.withRecipIters_self (c : Cfg) : c.withRecipIters c.nrRecipIters = c := rfl

/-- The legal triples `(W, F, S)` (R6). -/
theorem Format.wf_iff (f : Format) :
    f.wf = true ↔ f.width ∈ [8, 16, 32, 64] ∧ f.frac ≤ f.width ∧ (f.sign = .signed → f.frac < f.width) := by
  cases hs : f.sign with
  | signed =>
    have hfrac : f.frac + 1 ≤ f.width ↔ f.frac ≤ f.width ∧ f.frac < f.width := by omega
    simp [Format.wf, hs, hfrac, or_assoc]
  | unsigned => simp [Format.wf, hs, or_assoc]

/-- The legal configurations (R6). -/
theorem Cfg.wf_iff (c : Cfg) :
    c.wf = true ↔ (1 ≤ c.cordicN ∧ c.cordicN ≤ 24) ∧ (1 ≤ c.formats.length ∧ c.formats.length ≤ 16) ∧
      (∀ f ∈ c.formats, f.wf = true) ∧ c.nrIsqrtIters ≤ 8 := by
  simp only [Cfg.wf, Bool.and_eq_true, decide_eq_true_eq, List.all_eq_true, and_assoc]

end Sys2Proof

namespace Sys2Proof.Machine

/-! ### The approximation units do not see the reciprocal's iteration count -/

@[simp] theorem sinQ15_withRecipIters (c : Cfg) (n : Nat) (a : Int) : sinQ15 (c.withRecipIters n) a = sinQ15 c a := rfl
@[simp] theorem cosQ15_withRecipIters (c : Cfg) (n : Nat) (a : Int) : cosQ15 (c.withRecipIters n) a = cosQ15 c a := rfl
@[simp] theorem polarOf_withRecipIters (c : Cfg) (n : Nat) (y x : Int) :
    polarOf (c.withRecipIters n) y x = polarOf c y x := rfl
@[simp] theorem isqrtResponse_withRecipIters (c : Cfg) (n : Nat) (x : Int) :
    isqrtResponse (c.withRecipIters n) x = isqrtResponse c x := rfl
@[simp] theorem sqrtResponse_withRecipIters (c : Cfg) (n : Nat) (x : Int) :
    sqrtResponse (c.withRecipIters n) x = sqrtResponse c x := rfl
@[simp] theorem expResponse_withRecipIters (c : Cfg) (n : Nat) (x : Int) :
    expResponse (c.withRecipIters n) x = expResponse c x := rfl
@[simp] theorem lnResponse_withRecipIters (c : Cfg) (n : Nat) (x : Int) :
    lnResponse (c.withRecipIters n) x = lnResponse c x := rfl

/-! ### Two states with the same inputs -/

/-- `t` has the operands of `s`, and the configuration of `s` with `n` iterations of the reciprocal. The command word is not
asked for: of the responses `exec` forms only a trapped one depends on it (entry 3). -/
structure SameInputs (n : Nat) (s t : State) : Prop where
  cfg : t.cfg = s.cfg.withRecipIters n
  opA : t.host.opA = s.host.opA
  opB : t.host.opB = s.host.opB

/-- The response `r` formed in `s` and the response `q` formed in `t` are one response, or each is the trap of its state. -/
def RespondAlike (s t : State) (r q : Response) : Prop :=
  r = q ∨ (r = raiseTrap s ∧ q = raiseTrap t)

/-- `o` and `p` answer in `s` and in `t`, with responses that are alike. -/
def AnswerAlike (s t : State) (o p : Result) : Prop :=
  ∃ r q, o = answer r s ∧ p = answer q t ∧ RespondAlike s t r q

section
variable {n : Nat} {s t : State}

theorem answer_alike {r q : Response} (h : RespondAlike s t r q) : AnswerAlike s t (answer r s) (answer q t) :=
  ⟨r, q, rfl, rfl, h⟩

/-- Through `resolve` only the overflow policy is read; the free values of a trap come from `raiseTrap` alone (40 R63, 60 R176). -/
theorem resolvedResponse_alike (h : SameInputs n s t) (f : Format) (v : Int) :
    RespondAlike s t (resolvedResponse s f v) (resolvedResponse t f v) := by
  simp only [resolvedResponse, h.cfg, Cfg.withRecipIters_overflow]
  cases resolve f s.cfg.overflow v with
  | value r fo => exact .inl rfl
  | trapped => exact .inr ⟨rfl, rfl⟩

/-- The shape of QDIV, SDIV32 and FDIV16: `DZ` for a zero divisor, else the quotient through `resolve` (60 R171). -/
theorem quotientResponse_alike (h : SameInputs n s t) (f : Format) (a b v : Int) :
    RespondAlike s t (if b = 0 then zeroDivisorResponse f a else resolvedResponse s f v)
      (if b = 0 then zeroDivisorResponse f a else resolvedResponse t f v) := by
  by_cases hb : b = 0
  · simp only [hb, if_true]
    exact .inl rfl
  · simp only [hb, if_false]
    exact resolvedResponse_alike h f v

/-- An operation in a format finds the same format, or none, in both states. -/
theorem inFormat_alike (h : SameInputs n s t) {fmt : Nat} {k l : Format → Response}
    (hk : ∀ f, RespondAlike s t (k f) (l f)) : AnswerAlike s t (inFormat fmt s k) (inFormat fmt t l) := by
  have hf : t.cfg.formats[fmt]? = s.cfg.formats[fmt]? := by rw [h.cfg, Cfg.withRecipIters_formats]
  obtain ⟨f, hs, e⟩ | ⟨hs, e⟩ := inFormat_cases fmt s k
  · rw [e, inFormat_of_some (hf.trans hs)]
    exact answer_alike (hk f)
  · rw [e, inFormat_of_none (hf.trans hs)]
    exact answer_alike (.inl rfl)

/-- Every operation answers alike on two states with the same inputs. -/
theorem exec_alike (h : SameInputs n s t) (i : Instr) : AnswerAlike s t (exec i s) (exec i t) := by
  cases i with
  | qadd fmt | qsub fmt | qmul fmt | qabs fmt | qneg fmt | qfromint fmt | narrow fmt =>
    refine inFormat_alike h fun f => ?_
    simp only [h.cfg, h.opA, h.opB, Cfg.withRecipIters_rounding]
    exact resolvedResponse_alike h f _
  | qdiv fmt =>
    refine inFormat_alike h fun f => ?_
    simp only [h.opA, h.opB]
    exact quotientResponse_alike h f _ _ _
  | qone fmt | qhalf fmt | qtoint fmt | satadd fmt | satsub fmt =>
    exact inFormat_alike h fun f => .inl (by simp only [h.cfg, h.opA, h.opB, Cfg.withRecipIters_toIntMode])
  | sdiv32 =>
    rw [exec_sdiv32, exec_sdiv32, h.opA, h.opB]
    exact answer_alike (quotientResponse_alike h q16 _ _ _)
  | fdiv16 =>
    rw [exec_fdiv16, exec_fdiv16, h.opA, h.opB]
    refine answer_alike ?_
    simp only [fdivResponse, h.cfg, Cfg.withRecipIters_rounding]
    exact quotientResponse_alike h q16 _ _ _
  | rshr | sincos | atan2m | recip32 | isqrt16 | sqrt16 | div32 | exp16 | ln16 =>
    exact answer_alike (.inl (by simp [h.cfg, h.opA, h.opB]))

theorem raiseTrap_congr (hc : s.cfg = t.cfg) (hm : s.host.cmd = t.host.cmd) (hA : s.host.opA = t.host.opA)
    (hB : s.host.opB = t.host.opB) : raiseTrap s = raiseTrap t := by
  simp only [raiseTrap, hc, hm, hA, hB]

@[simp] theorem raiseTrap_hasTrap (s : State) : hasTrap (raiseTrap s) = true := by
  simp only [hasTrap, raiseTrap_status]
  decide

end

/-! ### The obligations of 00_scope.md -/

/-- Settles O8: with the whole configuration and the command word equal, the two traps are one response as well. -/
theorem responseDependsOnRequestAndConfigurationOnly : Obligations.ResponseDependsOnRequestAndConfigurationOnly := by
  intro i s t hc hm hA hB
  have h : SameInputs s.cfg.nrRecipIters s t := ⟨hc.symm, hA.symm, hB.symm⟩
  obtain ⟨r, q, hs, ht, rfl | ⟨rfl, rfl⟩⟩ := exec_alike h i
  · exact ⟨r, hs, ht⟩
  · exact ⟨raiseTrap s, hs, by rw [ht, raiseTrap_congr hc hm hA hB, answer_eq]; rfl⟩

/-- Settles O11: the two states have the same inputs, and two traps agree in `STATUS`. -/
theorem reciprocalIterationCountIsUnobservable : Obligations.ReciprocalIterationCountIsUnobservable := by
  intro i s n
  have h : SameInputs n s { s with cfg := s.cfg.withRecipIters n } := ⟨rfl, rfl, rfl⟩
  obtain ⟨r, q, hs, ht, hrq⟩ := exec_alike h i
  refine ⟨r, q, hs, ht, ?_⟩
  obtain rfl | ⟨rfl, rfl⟩ := hrq
  · exact ⟨rfl, fun _ => rfl⟩
  · exact ⟨by simp, fun hno => by simp at hno⟩

/-- Settles O24: each bound of R6 that fails contradicts `Cfg.wf_iff` or `Format.wf_iff`. -/
theorem illFormedConfigurationIsRefused : Obligations.IllFormedConfigurationIsRefused := by
  intro s hbad
  refine step_of_not_wf (Bool.eq_false_iff.mpr fun hwf => ?_)
  obtain ⟨⟨hN1, hN24⟩, ⟨hlen1, hlen16⟩, hformats, hisqrt⟩ := (Cfg.wf_iff s.cfg).mp hwf
  obtain h | h | h | h | h | ⟨f, hf, h⟩ := hbad
  · omega
  · omega
  · omega
  · simp [h] at hlen1
  · omega
  · obtain ⟨hwidth, hfrac, hsigned⟩ := (Format.wf_iff f).mp (hformats f hf)
    obtain h | h | ⟨hsign, h⟩ := h
    · exact h hwidth
    · omega
    · exact absurd (hsigned hsign) (by omega)

end Sys2Proof.Machine
end

section
/-! SUPPORT. What an answer leaves of the state, what a step keeps of CORE and of the host side, and the constants no operation
returns (10_state.md). -/

namespace Sys2Proof.Machine

/-! ### The invariant -/

/-- The invariant, clause by clause: a legal configuration, and legal responses pending and taken. -/
theorem State.inv_iff (s : State) :
    s.inv = true ↔ s.cfg.wf = true ∧ (∀ r, s.pending = some r → r.legal s.cfg = true) ∧
      ∀ r ∈ s.responses, r.legal s.cfg = true := by
  simp only [State.inv, Bool.and_eq_true, and_assoc, List.all_eq_true]
  cases s.pending <;> simp

/-! ### What a step keeps -/

section
variable {s t : State}

/-- No step writes the configuration or the host's choice of stops (10_state.md R12, R13). -/
theorem step_cfg_and_stops (h : step s = .next t) :
    t.cfg = s.cfg ∧ t.stopOnTrap = s.stopOnTrap ∧ t.stopOnIll = s.stopOnIll := by
  obtain ⟨-, u, hu, rfl⟩ := step_next h
  obtain ⟨-, rfl⟩ | ⟨r, -, -, -, rfl⟩ | ⟨r, -, -, -, rfl⟩ | ⟨r, -, -, -, -, rfl⟩ | ⟨-, -, -, rfl⟩ :=
    react_next_cases hu <;> simp

/-- The host's record stands, or the response that was pending is added at its end (70_reset_and_hazards.md R194.3). -/
theorem step_responses (h : step s = .next t) :
    t.responses = s.responses ∨ ∃ r, s.pending = some r ∧ t.responses = s.responses ++ [r] := by
  obtain ⟨-, u, hu, rfl⟩ := step_next h
  obtain ⟨-, rfl⟩ | ⟨r, -, hp, -, rfl⟩ | ⟨r, -, -, -, rfl⟩ | ⟨r, -, -, -, -, rfl⟩ | ⟨-, -, -, rfl⟩ := react_next_cases hu
  case inr.inl => exact .inr ⟨r, hp, by simp⟩
  all_goals exact .inl (by simp)

/-- What the host has taken stays an initial segment of its record. -/
theorem step_responses_prefix (h : step s = .next t) : ∃ l, t.responses = s.responses ++ l := by
  obtain e | ⟨r, -, e⟩ := step_responses h
  · exact ⟨[], by simp [e]⟩
  · exact ⟨[r], e⟩

theorem trapTaken_of_prefix {l : List Response} (h : t.responses = s.responses ++ l) (hs : s.trapTaken = true) :
    t.trapTaken = true := by
  rw [State.trapTaken, h, List.any_append, Bool.or_eq_true]
  exact .inl hs

end

/-! ### The tables and the formats -/

/-- The arctangents in brad16 (R20). -/
theorem atan16_values :
    (List.range 24).map atan16 =
      [8192, 4836, 2555, 1297, 651, 326, 163, 81, 41, 20, 10, 5, 3, 1, 1, 0, 0, 0, 0, 0, 0, 0, 0, 0] := by decide

/-- `v` is the integer nearest to `2^30 / K_N` (R21), without roots: with `K_N² = p / q`, the bounds `v - 1/2 ≤ 2^30 / K_N < v + 1/2`
doubled and squared. -/
def IsReciprocalGain (n : Nat) (v : Int) : Prop :=
  let p : Int := ((List.range n).map fun i => (4 : Int) ^ i + 1).prod
  let q : Int := ((List.range n).map fun i => (4 : Int) ^ i).prod
  (2 * v - 1) ^ 2 * p ≤ 2 ^ 62 * q ∧ 2 ^ 62 * q < (2 * v + 1) ^ 2 * p

/-- The reciprocal gain of every legal iteration count. -/
theorem invK30_isReciprocalGain : ∀ n ∈ List.range 25, 1 ≤ n → IsReciprocalGain n (invK30 n) := by
  simp only [IsReciprocalGain]
  decide

theorem constantOf_q16 :
    [MathConstant.pi, .e, .sqrt2, .ln2].map (constantOf ⟨32, 16, .signed⟩) = [205887, 178145, 92682, 45426] := by decide

/-- In Q1.15 the constants from 1 up are clamped to the largest value. -/
theorem constantOf_q15 :
    [MathConstant.pi, .e, .sqrt2, .ln2].map (constantOf ⟨16, 15, .signed⟩) = [32767, 32767, 32767, 22713] := by decide

/-- The descriptor of a signed format as quotients by `2^F` (R16). -/
theorem descriptorOf_signed (w f : Nat) :
    descriptorOf ⟨w, f, .signed⟩ =
      ⟨w, w - f, f, true, -2 ^ (w - 1) / 2 ^ f, (2 ^ (w - 1) - 1) / 2 ^ f, 1 / 2 ^ f⟩ := by
  simp [descriptorOf, fmtMin, fmtMax, Rat.mkRat_eq_div]

/-! ### The obligations of 10_state.md -/

/-- Settles O9: every operation is one answer, and an answer sets `pending` alone. -/
theorem operationsLeaveAllButPendingUnchanged : Obligations.OperationsLeaveAllButPendingUnchanged := by
  intro i s
  obtain ⟨r, hr⟩ := exec_answers i s
  exact ⟨setPending (some r) s, by rw [hr, answer_eq], by simp⟩

/-- Settles O15: the reference configuration is legal, and after reset there is no response to be legal. -/
theorem resetMeetsTheInvariant : Obligations.ResetMeetsTheInvariant :=
  (State.inv_iff State.reset).mpr ⟨by decide, by simp [State.reset], by simp [State.reset]⟩

/-- Settles O17: a step keeps what `step_cfg_and_stops` names and extends the record. -/
theorem configurationIsNeverWritten : Obligations.ConfigurationIsNeverWritten := by
  intro s t h
  obtain ⟨hcfg, htrap, hill⟩ := step_cfg_and_stops h
  exact ⟨hcfg, htrap, hill, step_responses_prefix h⟩

/-- Settles O22: the trap stays in the initial segment of the record that a step keeps. -/
theorem trapRecordIsSticky : Obligations.TrapRecordIsSticky := by
  intro s t hs h
  obtain ⟨l, hl⟩ := step_responses_prefix h
  exact trapTaken_of_prefix hl hs

/-- Settles O39: the list of R20, and the bounds of R21 for each `N`. -/
theorem cordicTablesAreThoseOfTheSpec : Obligations.CordicTablesAreThoseOfTheSpec :=
  ⟨atan16_values, invK30_isReciprocalGain⟩

/-- Settles O56: the constants evaluated, and the descriptor's quotients by `2^16` and `2^15`. -/
theorem formatConstantsAndDescriptors : Obligations.FormatConstantsAndDescriptors := by
  refine ⟨constantOf_q16, constantOf_q15, ?_, ?_⟩
  · rw [descriptorOf_signed]; norm_num
  · rw [descriptorOf_signed]; norm_num

end Sys2Proof.Machine
end

section
/-! SUPPORT. Which command words decode, and to what; which of them are legal (30_encoding.md R41, R47, R48, R52). -/

namespace Sys2Proof

open Sys2Proof.Claims

/-! ### The decoder -/

theorem wellFormed_iff (i : Instr) : i.wellFormed = true ↔ i.fmt?.getD 0 < 16 := by
  unfold Instr.wellFormed
  cases i.fmt? <;> simp

theorem withoutFmt_eq_ok_iff {op fmt : Nat} {i j : Instr} : withoutFmt op fmt j = .ok i ↔ fmt = 0 ∧ j = i := by
  unfold withoutFmt
  split <;> simp [*]

/-- The opcode table read in both directions (R47, R48): the fields decode to the one operation that has this opcode and carries
this `fmt`, 0 where it carries none. -/
theorem decodeFields_eq_ok_iff {op fmt : Nat} {i : Instr} :
    decodeFields op fmt = .ok i ↔ i.opcode = op ∧ i.fmt?.getD 0 = fmt := by
  constructor
  · intro h
    unfold decodeFields at h
    split at h
    case h_25 => cases h
    case h_13 | h_15 | h_16 | h_17 | h_18 | h_19 | h_20 | h_21 | h_22 | h_23 | h_24 =>
      obtain ⟨rfl, rfl⟩ := withoutFmt_eq_ok_iff.mp h
      exact ⟨rfl, rfl⟩
    all_goals
      cases h
      exact ⟨rfl, rfl⟩
  · rintro ⟨rfl, rfl⟩
    cases i <;> rfl

/-- A command word decodes to the operation its fields name, with nothing in bits 31:12 (R41, R47). -/
theorem decode_eq_ok_iff {cmd : Command} {i : Instr} :
    decode cmd = .ok i ↔ Command.zero cmd = 0 ∧ i.opcode = Command.opcode cmd ∧ i.fmt?.getD 0 = Command.fmt cmd := by
  unfold decode
  split <;> simp [decodeFields_eq_ok_iff, *]

theorem Command.fmt_lt (cmd : Command) : Command.fmt cmd < 16 := Nat.mod_lt _ (by decide)

/-- The three fields make up the word (R41). -/
theorem Command.toNat_eq_fields (cmd : Command) :
    cmd.toNat = Command.zero cmd * 4096 + Command.fmt cmd * 256 + Command.opcode cmd := by
  unfold Command.zero Command.fmt Command.opcode
  omega

theorem wellFormed_of_decode {cmd : Command} {i : Instr} (h : decode cmd = .ok i) : i.wellFormed = true := by
  obtain ⟨-, -, hfmt⟩ := decode_eq_ok_iff.mp h
  rw [wellFormed_iff, hfmt]
  exact Command.fmt_lt cmd

/-! ### The fields as the statements read them -/

theorem Command.opcode_eq_extract (cmd : Command) : Command.opcode cmd = (cmd.extractLsb' 0 8).toNat := by
  simp [Command.opcode]

theorem Command.fmt_eq_extract (cmd : Command) : Command.fmt cmd = (cmd.extractLsb' 8 4).toNat := by
  simp [Command.fmt, Nat.shiftRight_eq_div_pow]

theorem Command.zero_eq_zero_iff (cmd : Command) : Command.zero cmd = 0 ↔ cmd.extractLsb' 12 20 = 0#20 := by
  rw [← BitVec.toNat_inj, BitVec.extractLsb'_toNat, Nat.shiftRight_eq_div_pow, BitVec.toNat_ofNat, Command.zero]
  omega

theorem Command.fmt_eq_zero_iff (cmd : Command) : Command.fmt cmd = 0 ↔ cmd.extractLsb' 8 4 = 0#4 := by
  rw [Command.fmt_eq_extract, ← BitVec.toNat_inj, BitVec.toNat_ofNat, Nat.zero_mod]

/-! ### The two halves of the opcode table -/

/-- The operations in the format `n`, in the order of the table. -/
def formatInstrs (n : Nat) : List Instr :=
  [.qadd n, .qsub n, .qmul n, .qdiv n, .qabs n, .qneg n, .qone n, .qhalf n, .qfromint n, .qtoint n, .satadd n, .satsub n,
   .narrow n]

/-- The operations without a format, in the order of the table. -/
def plainInstrs : List Instr :=
  [.rshr, .sincos, .atan2m, .recip32, .isqrt16, .sqrt16, .fdiv16, .div32, .sdiv32, .exp16, .ln16]

theorem mem_formatInstrs_iff (i : Instr) (n : Nat) : i ∈ formatInstrs n ↔ i.fmt? = some n := by
  cases i <;> simp [formatInstrs, Instr.fmt?]

theorem mem_plainInstrs_iff (i : Instr) : i ∈ plainInstrs ↔ i.fmt? = none := by
  cases i <;> simp [plainInstrs, Instr.fmt?]

theorem mem_formatOpcodes_iff (op n : Nat) : op ∈ formatOpcodes ↔ ∃ i : Instr, i.fmt? = some n ∧ i.opcode = op := by
  have hmap : formatOpcodes = (formatInstrs n).map Instr.opcode := rfl
  simp only [hmap, List.mem_map, mem_formatInstrs_iff]

theorem mem_plainOpcodes_iff (op : Nat) : op ∈ plainOpcodes ↔ ∃ i : Instr, i.fmt? = none ∧ i.opcode = op := by
  have hmap : plainOpcodes = plainInstrs.map Instr.opcode := rfl
  simp only [hmap, List.mem_map, mem_plainInstrs_iff]

/-! ### Legal commands -/

theorem legalCommand_iff (c : Cfg) (cmd : Command) :
    legalCommand c cmd = true ↔ ∃ i, decode cmd = .ok i ∧ i.legal c = true := by
  unfold legalCommand
  cases decode cmd <;> simp

theorem legal_of_fmt {c : Cfg} {i : Instr} {n : Nat} (hi : i.fmt? = some n) :
    i.legal c = true ↔ n < 16 ∧ n < c.formats.length := by
  simp [Instr.legal, Instr.wellFormed, hi]

theorem legal_of_noFmt {c : Cfg} {i : Instr} (hi : i.fmt? = none) : i.legal c = true := by
  simp [Instr.legal, Instr.wellFormed, hi]

/-- The legal command words by their fields (R47, R48). -/
theorem legalCommand_iff_fields (c : Cfg) (cmd : Command) :
    legalCommand c cmd = true ↔ Command.zero cmd = 0 ∧
      ((Command.opcode cmd ∈ formatOpcodes ∧ Command.fmt cmd < c.formats.length) ∨
        (Command.opcode cmd ∈ plainOpcodes ∧ Command.fmt cmd = 0)) := by
  simp only [legalCommand_iff, decode_eq_ok_iff, mem_formatOpcodes_iff _ (Command.fmt cmd), mem_plainOpcodes_iff]
  constructor
  · rintro ⟨i, ⟨hzero, hop, hfmt⟩, hlegal⟩
    refine ⟨hzero, ?_⟩
    cases hi : i.fmt? with
    | some n =>
      obtain rfl : n = Command.fmt cmd := by simpa [hi] using hfmt
      exact .inl ⟨⟨i, hi, hop⟩, ((legal_of_fmt hi).mp hlegal).2⟩
    | none => exact .inr ⟨⟨i, hi, hop⟩, by simpa [hi] using hfmt.symm⟩
  · rintro ⟨hzero, ⟨⟨i, hi, hop⟩, hlt⟩ | ⟨⟨i, hi, hop⟩, hfmt⟩⟩
    · exact ⟨i, ⟨hzero, hop, by simp [hi]⟩, (legal_of_fmt hi).mpr ⟨Command.fmt_lt cmd, hlt⟩⟩
    · exact ⟨i, ⟨hzero, hop, by simp [hi, hfmt]⟩, legal_of_noFmt hi⟩

/-! ### The obligations on the encoding -/

/-- Settles O1: the fields of the encoding are those the decoder asks for. -/
theorem decodeOfEncodeIsTheInstruction : Obligations.DecodeOfEncodeIsTheInstruction := fun _ h =>
  decode_eq_ok_iff.mpr ⟨zero_encode h, (opcode_encode h).symm, (fmt_encode h).symm⟩

/-- Settles O2: the word is the sum of its fields, and the encoding puts the same fields together. -/
theorem encodeOfDecodeIsTheCommand : Obligations.EncodeOfDecodeIsTheCommand := by
  intro cmd i h
  have hwf := wellFormed_of_decode h
  obtain ⟨hzero, hop, hfmt⟩ := decode_eq_ok_iff.mp h
  refine ⟨BitVec.eq_of_toNat_eq ?_, hwf⟩
  rw [encode_toNat hwf, Command.toNat_eq_fields cmd, hzero, hop, hfmt]
  omega

/-- Settles O3: `legalCommand_iff_fields`, with the fields read as the statement reads them. -/
theorem legalCommandsAreThoseOfTheTable : Obligations.LegalCommandsAreThoseOfTheTable := by
  intro c cmd
  rw [legalCommand_iff_fields, Command.zero_eq_zero_iff, Command.fmt_eq_zero_iff, Command.opcode_eq_extract,
    Command.fmt_eq_extract]

/-- Settles O4: the decoder evaluated on each word. -/
theorem writtenOutWordsDecode : Obligations.WrittenOutWordsDecode :=
  ⟨rfl, rfl, rfl, rfl, rfl, rfl, rfl, rfl, rfl, rfl, rfl, rfl⟩

theorem legalCommand_of_reserved (c : Cfg) {cmd : Command}
    (h : (cmd.extractLsb' 0 8).toNat ∉ formatOpcodes ++ plainOpcodes ∨ cmd.extractLsb' 12 20 ≠ 0#20) :
    legalCommand c cmd = false := by
  refine Bool.eq_false_iff.mpr fun hlegal => ?_
  obtain ⟨hzero, hop⟩ := (legalCommandsAreThoseOfTheTable c cmd).mp hlegal
  obtain h | h := h
  · exact h (List.mem_append.mpr (hop.imp And.left And.left))
  · exact h hzero

/-- Settles O5: what O3 does not list is illegal, and 0x00 is no opcode. -/
theorem reservedEncodingsAreIllegal : Obligations.ReservedEncodingsAreIllegal :=
  ⟨by decide +kernel, fun c _ h => legalCommand_of_reserved c h, fun c => legalCommand_of_reserved c (.inl (by decide))⟩

end Sys2Proof
end

section
/-! SUPPORT. What an illegal command is answered, which operand bits an operation reads, and how many responses a step adds
(30_encoding.md R42, R43, R49, R54). -/

namespace Sys2Proof.Machine

open Sys2Proof.Claims

/-! ### Illegal commands -/

/-- A command that is not legal is answered alike whether it names no operation or only no format (R48, R49). -/
theorem acceptRequest_of_illegal {s : State} (h : legalCommand s.cfg s.host.cmd = false) :
    acceptRequest s = answer illegalResponse s := by
  cases hd : decode s.host.cmd with
  | error e => exact acceptRequest_of_error hd
  | ok i =>
    have hillegal : ¬ i.legal s.cfg = true := fun hl =>
      Bool.eq_false_iff.mp h ((legalCommand_iff s.cfg s.host.cmd).mpr ⟨i, hd, hl⟩)
    cases hi : i.fmt? with
    | none => exact absurd (legal_of_noFmt hi) hillegal
    | some n =>
      have hn : n < 16 := by simpa [hi] using (wellFormed_iff i).mp (wellFormed_of_decode hd)
      have hlen : s.cfg.formats.length ≤ n := by
        rw [legal_of_fmt hi] at hillegal
        omega
      rw [acceptRequest_of_decode hd, exec_of_noFormat hi (List.getElem?_eq_none hlen)]

/-- The host takes an `ILL` response that is no trap: its run is refused where it stops on illegal commands, else it goes on. -/
theorem takeResponse_of_ill {r : Response} {s : State} (htrap : hasTrap r = false) (hill : hasIll r = true) :
    takeResponse r s =
      if s.stopOnIll then .refused .illegalCommand else .next (recordResponse r (setPending none s)) := by
  simp [takeResponse, htrap, hill]

/-! ### The operand bits an operation reads -/

theorem operand_congr {f : Format} {x y : Word} (h : x.toNat % 2 ^ f.width = y.toNat % 2 ^ f.width) :
    operand f x = operand f y := by
  simp only [operand, lowBits, h]

theorem readI64_congr {x y : Word} (h : x.toNat % 2 ^ 64 = y.toNat % 2 ^ 64) : readI64 x = readI64 y := by
  simp only [readI64, lowBits, h]

theorem readI32_congr {x y : Word} (h : x.toNat % 2 ^ 32 = y.toNat % 2 ^ 32) : readI32 x = readI32 y := by
  simp only [readI32, lowBits, h]

theorem readI16_congr {x y : Word} (h : x.toNat % 2 ^ 16 = y.toNat % 2 ^ 16) : readI16 x = readI16 y := by
  simp only [readI16, lowBits, h]

theorem readU32_congr {x y : Word} (h : x.toNat % 2 ^ 32 = y.toNat % 2 ^ 32) : readU32 x = readU32 y := h

theorem readSh6_congr {x y : Word} (h : x.toNat % 2 ^ 6 = y.toNat % 2 ^ 6) : readSh6 x = readSh6 y := h

@[simp] theorem withOperands_cfg (s : State) (a b : Word) : (withOperands s a b).cfg = s.cfg := rfl

theorem widthOf_of_some {c : Cfg} {i : Instr} {n : Nat} {f : Format} (hi : i.fmt? = some n)
    (hf : c.formats[n]? = some f) : widthOf c i = f.width := by
  simp [widthOf, hi, hf]

section
variable {s : State} {a b : Word}

/-- A result through `resolve` does not depend on the operands but for the free values of a trap (40 R63, 60 R176). -/
theorem resolvedResponse_withOperands (s : State) (a b : Word) (f : Format) (v : Int) :
    RespondAlike s (withOperands s a b) (resolvedResponse s f v) (resolvedResponse (withOperands s a b) f v) := by
  simp only [resolvedResponse, withOperands_cfg]
  cases resolve f s.cfg.overflow v with
  | value r fo => exact .inl rfl
  | trapped => exact .inr ⟨rfl, rfl⟩

theorem quotientResponse_withOperands (s : State) (a b : Word) (f : Format) (n d v : Int) :
    RespondAlike s (withOperands s a b) (if d = 0 then zeroDivisorResponse f n else resolvedResponse s f v)
      (if d = 0 then zeroDivisorResponse f n else resolvedResponse (withOperands s a b) f v) := by
  split
  · exact .inl rfl
  · exact resolvedResponse_withOperands s a b f v

/-- An operation in a format answers alike when it does so in the format that `fmt` names. -/
theorem inFormat_withOperands {fmt : Nat} {k l : Format → Response}
    (hkl : ∀ f, s.cfg.formats[fmt]? = some f → RespondAlike s (withOperands s a b) (k f) (l f)) :
    AnswerAlike s (withOperands s a b) (inFormat fmt s k) (inFormat fmt (withOperands s a b) l) := by
  cases hf : s.cfg.formats[fmt]? with
  | some f =>
    rw [inFormat_of_some hf, inFormat_of_some (s := withOperands s a b) hf]
    exact answer_alike (hkl f hf)
  | none =>
    rw [inFormat_of_none hf, inFormat_of_none (s := withOperands s a b) hf]
    exact answer_alike (.inl rfl)

/-- Every operation answers alike on operands that agree in the bits it reads (30 R42, R47). -/
theorem exec_withOperands (i : Instr)
    (hA : s.host.opA.toNat % 2 ^ (bitsRead (widthOf s.cfg i) i).1 = a.toNat % 2 ^ (bitsRead (widthOf s.cfg i) i).1)
    (hB : s.host.opB.toNat % 2 ^ (bitsRead (widthOf s.cfg i) i).2 = b.toNat % 2 ^ (bitsRead (widthOf s.cfg i) i).2) :
    AnswerAlike s (withOperands s a b) (exec i s) (exec i (withOperands s a b)) := by
  cases i with
  | qadd fmt | qsub fmt | qmul fmt =>
    refine inFormat_withOperands fun f hf => ?_
    rw [widthOf_of_some rfl hf] at hA hB
    rw [operand_congr hA, operand_congr hB]
    exact resolvedResponse_withOperands s a b f _
  | qabs fmt | qneg fmt =>
    refine inFormat_withOperands fun f hf => ?_
    rw [widthOf_of_some rfl hf] at hA
    rw [operand_congr hA]
    exact resolvedResponse_withOperands s a b f _
  | qfromint fmt | narrow fmt =>
    refine inFormat_withOperands fun f _ => ?_
    rw [readI64_congr hA]
    exact resolvedResponse_withOperands s a b f _
  | qdiv fmt =>
    refine inFormat_withOperands fun f hf => ?_
    rw [widthOf_of_some rfl hf] at hA hB
    rw [operand_congr hA, operand_congr hB]
    exact quotientResponse_withOperands s a b f _ _ _
  | qone fmt | qhalf fmt => exact inFormat_withOperands fun _ _ => .inl rfl
  | qtoint fmt =>
    refine inFormat_withOperands fun f hf => .inl ?_
    rw [widthOf_of_some rfl hf] at hA
    rw [operand_congr hA]
    rfl
  | satadd fmt | satsub fmt =>
    refine inFormat_withOperands fun f hf => .inl ?_
    rw [widthOf_of_some rfl hf] at hA hB
    rw [operand_congr hA, operand_congr hB]
    rfl
  | rshr => exact answer_alike (.inl (by rw [readI64_congr hA, readSh6_congr hB]; rfl))
  | sincos => exact answer_alike (.inl (by rw [readI16_congr hA]; rfl))
  | atan2m => exact answer_alike (.inl (by rw [readI32_congr hA, readI32_congr hB]; rfl))
  | recip32 => exact answer_alike (.inl (by rw [readU32_congr hA]; rfl))
  | isqrt16 | sqrt16 | exp16 | ln16 => exact answer_alike (.inl (by rw [readI32_congr hA]; rfl))
  | div32 => exact answer_alike (.inl (by rw [readU32_congr hA, readU32_congr hB]; rfl))
  | fdiv16 | sdiv32 =>
    refine answer_alike ?_
    rw [readI32_congr hA, readI32_congr hB]
    exact quotientResponse_withOperands s a b q16 _ _ _

end

section
variable {s t : State}

/-- Responses that are alike have one status, and the same words where it shows no trap. -/
theorem RespondAlike.agree {r q : Response} (h : RespondAlike s t r q) :
    r.status = q.status ∧ (hasTrap r = false → r = q) := by
  obtain rfl | ⟨rfl, rfl⟩ := h
  · exact ⟨rfl, fun _ => rfl⟩
  · exact ⟨by simp, fun hno => by simp at hno⟩

/-! ### Counting responses -/

@[simp] theorem advance_answered (s : State) : (advance s).answered = s.answered := by
  simp [State.answered]

/-! ### A host that goes on -/

theorem hostGoesOn_iff (s : State) : s.hostGoesOn = true ↔ s.stopOnTrap = false ∧ s.stopOnIll = false := by
  simp [State.hostGoesOn]

theorem takeResponse_of_hostGoesOn (h : s.hostGoesOn = true) (r : Response) :
    takeResponse r s = .next (recordResponse r (setPending none s)) := by
  obtain ⟨htrap, hill⟩ := (hostGoesOn_iff s).mp h
  simp [takeResponse, htrap, hill]

/-- CORE's reaction stops a run only where the host stops it (60 R181, 30 R54). -/
theorem react_of_hostGoesOn (h : s.hostGoesOn = true) : ∃ u, react s = .next u := by
  cases hr : s.host.resetIn with
  | true => exact ⟨_, react_reset hr⟩
  | false =>
    cases hp : s.pending with
    | some r =>
      cases hy : s.host.rspReady with
      | true => exact ⟨_, (react_take hr hp hy).trans (takeResponse_of_hostGoesOn h r)⟩
      | false => exact ⟨_, react_hold hr hp hy⟩
    | none =>
      cases hv : s.host.reqValid with
      | true =>
        rw [react_accept hr hp hv]
        obtain ⟨i, r, -, -, e⟩ | e := acceptRequest_cases s
        · exact ⟨_, e⟩
        · exact ⟨_, e⟩
      | false => exact ⟨_, react_idle hr hp hv⟩

/-- With a host that goes on a step answers a next state, and the host still goes on there. -/
theorem step_of_hostGoesOn (hwf : s.cfg.wf = true) (h : s.hostGoesOn = true) :
    ∃ t, step s = .next t ∧ t.cfg = s.cfg ∧ t.hostGoesOn = true := by
  obtain ⟨u, hu⟩ := react_of_hostGoesOn h
  have hstep : step s = .next (advance u) := by rw [step_of_wf hwf, hu, afterStep]
  obtain ⟨hcfg, htrap, hill⟩ := step_cfg_and_stops hstep
  exact ⟨advance u, hstep, hcfg, by rw [State.hostGoesOn, htrap, hill]; exact h⟩

end

theorem run_succ {M : Host.Core} {s t : M.State} (h : M.step s = .next t) (k : Nat) : M.run (k + 1) s = M.run k t := by
  rw [Host.Core.run, h]

/-! ### The obligations on requests and responses -/

/-- Settles O6: the illegal command by `acceptRequest_of_illegal`, the taking of its response by `takeResponse_of_ill`. -/
theorem illegalCommandsAnswerIllAndNothingElse : Obligations.IllegalCommandsAnswerIllAndNothingElse := by
  refine ⟨fun s hwf hr hp hv hillegal => ?_, fun s hwf hr hp hy => ?_⟩
  · rw [step_of_wf hwf, react_accept hr hp hv, acceptRequest_of_illegal hillegal]
    rfl
  · rw [step_of_wf hwf, react_take hr hp hy, takeResponse_of_ill (by decide) (by decide)]
    exact ⟨fun hstop => by rw [if_pos hstop]; rfl, fun hgo => by rw [if_neg (by simp [hgo])]; rfl⟩

/-- Settles O10: each operation reads its operands through their low bits only. -/
theorem operandBitsAboveTheWidthAreIgnored : Obligations.OperandBitsAboveTheWidthAreIgnored := by
  intro i s a b hA hB
  obtain ⟨r, q, hs, ht, hrq⟩ := exec_withOperands i hA hB
  exact ⟨r, q, hs, ht, hrq.agree⟩

/-- Settles O20: of the four things a step can do out of reset, only accepting a request adds a response; taking one moves it. -/
theorem oneResponseForEachAcceptedRequest : Obligations.OneResponseForEachAcceptedRequest := by
  intro s t hr h
  obtain ⟨-, u, hu, rfl⟩ := step_next h
  rw [advance_answered]
  obtain ⟨hr', -⟩ | ⟨r, -, hp, -, rfl⟩ | ⟨r, -, hp, -, rfl⟩ | ⟨r, -, hp, hv, -, rfl⟩ | ⟨-, -, hv, rfl⟩ :=
    react_next_cases hu
  · simp [hr] at hr'
  · simp [State.answered, reqReady, hp]
  · simp [reqReady, hp]
  · simp [State.answered, reqReady, hr, hp, hv]
  · simp [hv]

/-- Settles O23: by induction on the number of steps, with `step_of_hostGoesOn` for each. -/
theorem hostThatGoesOnIsNeverStopped : Obligations.HostThatGoesOnIsNeverStopped := by
  intro s hwf h k
  induction k generalizing s with
  | zero => exact ⟨s, rfl, rfl⟩
  | succ k ih =>
    obtain ⟨t, hstep, hcfg, ht⟩ := step_of_hostGoesOn hwf h
    obtain ⟨u, hrun, hu⟩ := ih t (hcfg ▸ hwf) ht
    exact ⟨u, (run_succ (M := Sys2Proof.core) hstep k).trans hrun, hu.trans hcfg⟩

end Sys2Proof.Machine
end

section
/-! SUPPORT. The rounding shift as exact rounding, `resolve` and the clamp as their policies say, result words read back, and the
opcode of an operation with and without a format (30_encoding.md R41, R47; 40_saturate_round.md R60 to R68). -/

namespace Sys2Proof

open Sys2Proof.Claims

/-! ### Opcodes -/

theorem decode_of_fields {op fmt : Nat} (hop : op < 256) (hfmt : fmt < 16) :
    decode (BitVec.ofNat 32 (fmt * 256 + op)) = decodeFields op fmt := by
  have hword : (BitVec.ofNat 32 (fmt * 256 + op)).toNat = fmt * 256 + op := by
    rw [BitVec.toNat_ofNat]
    omega
  have hzero : Command.zero (BitVec.ofNat 32 (fmt * 256 + op)) = 0 := by
    rw [Command.zero, hword]
    omega
  have hopcode : Command.opcode (BitVec.ofNat 32 (fmt * 256 + op)) = op := by
    rw [Command.opcode, hword]
    omega
  have hindex : Command.fmt (BitVec.ofNat 32 (fmt * 256 + op)) = fmt := by
    rw [Command.fmt, hword]
    omega
  rw [decode, if_pos hzero, hopcode, hindex]

/-- The row of an operation without a format (R48). -/
theorem decodeFields_of_noFmt {i : Instr} (hi : i.fmt? = none) (fmt : Nat) :
    decodeFields i.opcode fmt = withoutFmt i.opcode fmt i := by
  cases i <;> simp only [Instr.fmt?, reduceCtorEq] at hi <;> rfl

theorem formatOpcode_of_fmt {op : Nat} {mk : Nat → Instr} (hop : ∀ n, (mk n).opcode = op)
    (hfmt : ∀ n, (mk n).fmt? = some n) : FormatOpcode op mk := by
  intro n hn
  rw [decode_of_fields (hop n ▸ opcode_lt (mk n)) hn]
  exact decodeFields_eq_ok_iff.mpr ⟨hop n, by rw [hfmt n, Option.getD_some]⟩

theorem plainOpcode_of_noFmt {i : Instr} (hi : i.fmt? = none) : PlainOpcode i.opcode i := by
  have hfields (n : Nat) (hn : n < 16) :
      decode (BitVec.ofNat 32 (n * 256 + i.opcode)) = withoutFmt i.opcode n i := by
    rw [decode_of_fields (opcode_lt i) hn, decodeFields_of_noFmt hi]
  refine ⟨?_, fun n hpos hn => ⟨.fmtNotZero i.opcode, ?_⟩⟩
  · simpa [withoutFmt] using hfields 0 (by decide)
  · rw [hfields n hn, withoutFmt, if_neg (by omega)]

end Sys2Proof

namespace Sys2Proof.Machine

open Sys2Proof.Claims

/-! ### The rounding shift -/

theorem asr_eq_floor (v : Int) (s : Nat) : asr v s = ⌊(v : ℚ) / 2 ^ s⌋ := by
  have h := Rat.floor_intCast_div_natCast v (2 ^ s)
  push_cast at h
  exact h.symm

theorem neg_asr_neg_eq_ceil (v : Int) (s : Nat) : -asr (-v) s = ⌈(v : ℚ) / 2 ^ s⌉ := by
  rw [asr_eq_floor, Int.cast_neg, neg_div, Int.floor_neg, neg_neg]

/-- Adding half of `2^s` before the shift adds one half to the quotient (R62). -/
theorem asr_add_half_eq_floor (v : Int) {s : Nat} (hs : 1 ≤ s) :
    asr (v + 2 ^ (s - 1)) s = ⌊(v : ℚ) / 2 ^ s + 1 / 2⌋ := by
  obtain ⟨k, rfl⟩ : ∃ k, s = k + 1 := ⟨s - 1, by omega⟩
  have hhalf : ((v + 2 ^ k : Int) : ℚ) / 2 ^ (k + 1) = (v : ℚ) / 2 ^ (k + 1) + 1 / 2 := by
    push_cast
    field_simp
    ring
  rw [asr_eq_floor, Nat.add_sub_cancel, hhalf]

theorem rshiftRound_eq_roundedQuotient (mode : RoundingPolicy) (v : Int) {s : Nat} (hs : 1 ≤ s) :
    rshiftRound mode v s = roundedQuotient mode v s := by
  simp only [rshiftRound, if_neg (show s ≠ 0 by omega)]
  cases mode with
  | floor => exact asr_eq_floor v s
  | ceil => exact neg_asr_neg_eq_ceil v s
  | nearest => exact asr_add_half_eq_floor v hs
  | truncate => simp only [roundedQuotient, asr_eq_floor v, neg_asr_neg_eq_ceil]

/-- A 64-bit value shifted by 1 or more has a magnitude of at most `2^62`, in every mode (R67). -/
theorem rshiftRound_natAbs_le (mode : RoundingPolicy) {v : Int} (h0 : -2 ^ 63 ≤ v) (h1 : v < 2 ^ 63) {s : Nat}
    (hs : 1 ≤ s) : (rshiftRound mode v s).natAbs ≤ 2 ^ 62 := by
  obtain ⟨hfloor, hceil⟩ := rshiftRound_bounds mode v s
  have hp : (0 : Int) < 2 ^ s := by positivity
  have h2 : (2 : Int) ≤ 2 ^ s := le_self_pow₀ one_le_two (by omega)
  have hlow : -2 ^ 62 ≤ v / 2 ^ s := (Int.le_ediv_iff_mul_le hp).mpr (by omega)
  have hhigh : v / 2 ^ s < 2 ^ 62 := (Int.ediv_lt_iff_lt_mul hp).mpr (by omega)
  omega

/-- The rounding shift of a 64-bit value is a 64-bit value (R67). -/
theorem rshiftRound_fits (mode : RoundingPolicy) {v : Int} (h0 : -2 ^ 63 ≤ v) (h1 : v < 2 ^ 63) (s : Nat) :
    -2 ^ 63 ≤ rshiftRound mode v s ∧ rshiftRound mode v s < 2 ^ 63 := by
  obtain rfl | hs := Nat.eq_zero_or_pos s
  · exact ⟨h0, h1⟩
  · have h := rshiftRound_natAbs_le mode h0 h1 hs
    omega

/-! ### Ranges, operands and result words as the statements read them -/

theorem lowest_eq (f : Format) : lowest f = fmtMin f := rfl

theorem highest_eq (f : Format) : highest f = fmtMax f := rfl

theorem inRange_iff_between (f : Format) (v : Int) : inRange f v = true ↔ lowest f ≤ v ∧ v ≤ highest f := inRange_iff f v

theorem inRange_of_outside {f : Format} {v : Int} (h : v < lowest f ∨ highest f < v) : inRange f v = false := by
  refine Bool.eq_false_iff.mpr fun hin => ?_
  obtain ⟨h0, h1⟩ := (inRange_iff_between f v).mp hin
  omega

/-- The wrapped value lies between the extremes, whatever was wrapped (R63). -/
theorem wrapTo_between {f : Format} (hwf : f.wf = true) (v : Int) : lowest f ≤ wrapTo f v ∧ wrapTo f v ≤ highest f :=
  (inRange_iff_between f _).mp (wrapTo_inRange (width_of_wf hwf).1 v)

theorem clampTo_of_outside {f : Format} {v : Int} (h : v < lowest f ∨ highest f < v) :
    clampTo f v = if v < lowest f then lowest f else highest f := by
  split
  next hlow => exact clampTo_of_lt hlow
  next hlow => exact clampTo_of_gt (h.resolve_left hlow)

theorem put_eq_wordOf {f : Format} {v : Int} (h : inRange f v = true) : put f v = wordOf v := put_of_inRange h

theorem operand_eq_rawOf {f : Format} (hwf : f.wf = true) (x : Word) : operand f x = rawOf f x := by
  cases hs : f.sign with
  | signed => simp only [rawOf, hs, operand_signed (width_of_wf hwf).1 hs]
  | unsigned => simp only [rawOf, hs, operand_unsigned hs]

theorem setWidth_ofInt {w n : Nat} (h : w ≤ n) (v : Int) : (BitVec.ofInt n v).setWidth w = BitVec.ofInt w v := by
  have hdvd : ((2 ^ w : Nat) : Int) ∣ ((2 ^ n : Nat) : Int) := Int.natCast_dvd_natCast.mpr (pow_dvd_pow 2 h)
  refine BitVec.eq_of_toNat_eq (Int.natCast_inj.mp ?_)
  rw [BitVec.toNat_setWidth, BitVec.toNat_ofInt, BitVec.toNat_ofInt, Int.natCast_emod,
    Int.toNat_of_nonneg (Int.emod_nonneg _ (by positivity)), Int.toNat_of_nonneg (Int.emod_nonneg _ (by positivity)),
    Int.emod_emod_of_dvd _ hdvd]

/-- The low `W` bits of the pattern of a value in range are that value, in either reading (R61). -/
theorem rawOf_wordOf {f : Format} (hwf : f.wf = true) {v : Int} (h0 : lowest f ≤ v) (h1 : v ≤ highest f) :
    rawOf f (wordOf v) = v := by
  obtain ⟨hpos, h64⟩ := width_of_wf hwf
  cases hs : f.sign with
  | signed =>
    simp only [lowest, highest, hs] at h0 h1
    simp only [rawOf, hs, wordOf, setWidth_ofInt h64]
    exact BitVec.toInt_ofInt_eq_self hpos h0 (by omega)
  | unsigned =>
    simp only [lowest, highest, hs] at h0 h1
    have hlt : v < ((2 ^ f.width : Nat) : Int) := by
      push_cast
      omega
    simp only [rawOf, hs, wordOf, setWidth_ofInt h64, BitVec.toNat_ofInt]
    rw [Int.emod_eq_of_lt h0 hlt, Int.toNat_of_nonneg h0]

/-! ### What an operation answers -/

theorem answers_respond (s : State) (r0 r1 : Word) (b : StatusBits) :
    Answers (answer (respond r0 r1 b) s) s r0 r1 (statusWord b) := rfl

/-- The exact value through `resolve`, in each clause of R63. -/
theorem resolvedResponse_followsPolicy (s : State) {f : Format} (hwf : f.wf = true) (v : Int) :
    FollowsPolicy s f v (answer (resolvedResponse s f v) s) := by
  refine ⟨fun h0 h1 => ?_, fun h hp => ?_, fun h hp => ?_, fun h hp => ?_, fun h hp => ?_⟩
  · have hin := (inRange_iff_between f v).mpr ⟨h0, h1⟩
    rw [resolvedResponse, resolve_of_inRange hin, ← put_eq_wordOf hin]
    exact answers_respond s _ _ _
  · obtain ⟨h0, h1⟩ := wrapTo_between hwf v
    refine ⟨wrapTo f v, h0, h1, wrapTo_congr f v, ?_⟩
    rw [resolvedResponse, resolve_of_outOfRange (inRange_of_outside h), hp,
      ← put_eq_wordOf ((inRange_iff_between f _).mpr ⟨h0, h1⟩)]
    exact answers_respond s _ _ _
  · rw [resolvedResponse, resolve_of_outOfRange (inRange_of_outside (.inl h)), hp, lowest_eq, ← clampTo_of_lt h,
      ← put_eq_wordOf (clampTo_inRange f v)]
    exact answers_respond s _ _ _
  · rw [resolvedResponse, resolve_of_outOfRange (inRange_of_outside (.inr h)), hp, highest_eq, ← clampTo_of_gt h,
      ← put_eq_wordOf (clampTo_inRange f v)]
    exact answers_respond s _ _ _
  · rw [resolvedResponse, resolve_of_outOfRange (inRange_of_outside h), hp]
    exact ⟨_, _, rfl⟩

/-- The clamped response sets `FO` exactly when the clamp changed the value (R65). -/
theorem clampedResponse_saturates (s : State) (f : Format) (v : Int) :
    Saturates s f v (answer (clampedResponse f v) s) := by
  have hanswer : Answers (answer (clampedResponse f v) s) s (wordOf (clampTo f v)) 0
      (statusWord { fo := decide (clampTo f v ≠ v) }) := by
    rw [clampedResponse, put_eq_wordOf (clampTo_inRange f v)]
    exact answers_respond s _ _ _
  refine ⟨fun h0 h1 => ?_, fun h => ?_, fun h => ?_⟩
  · have hv := clampTo_of_inRange ((inRange_iff_between f v).mpr ⟨h0, h1⟩)
    rwa [hv, decide_eq_false (by simp)] at hanswer
  · rwa [clampTo_of_lt h, ← lowest_eq, decide_eq_true (by omega)] at hanswer
  · rwa [clampTo_of_gt h, ← highest_eq, decide_eq_true (by omega)] at hanswer

/-! ### The obligations of 40_saturate_round.md -/

/-- Settles O25: each mode's shift is the floor or the ceiling of the exact quotient. -/
theorem roundingShiftRoundsByItsMode : Obligations.RoundingShiftRoundsByItsMode :=
  ⟨rshiftRound_zero, fun mode v _ hs => rshiftRound_eq_roundedQuotient mode v hs⟩

/-- Settles O26: the wrapped value is in range and congruent, the clamped one the extreme on the value's side. -/
theorem resolveFollowsThePolicy : Obligations.ResolveFollowsThePolicy := by
  intro f v hwf
  refine ⟨fun p h0 h1 => resolve_of_inRange ((inRange_iff_between f v).mpr ⟨h0, h1⟩) p, fun hout => ?_⟩
  have hresolve := resolve_of_outOfRange (inRange_of_outside hout)
  obtain ⟨h0, h1⟩ := wrapTo_between hwf v
  exact ⟨⟨wrapTo f v, hresolve .wrap, h0, h1, wrapTo_congr f v⟩,
    clampTo_of_outside hout ▸ hresolve .saturate, hresolve .trap⟩

/-- Settles O27: the word is the value's 64-bit pattern, whose low `W` bits read as the value. -/
theorem resultWordReadsBackAsItsValue : Obligations.ResultWordReadsBackAsItsValue := by
  intro f v hwf h0 h1
  have hput := put_eq_wordOf ((inRange_iff_between f v).mpr ⟨h0, h1⟩)
  exact ⟨by rw [hput, operand_eq_rawOf hwf, rawOf_wordOf hwf h0 h1], hput⟩

/-- Settles O28: both operations are the clamped response to their exact value. -/
theorem saturatingAddAndSubtractClamp : Obligations.SaturatingAddAndSubtractClamp := by
  refine ⟨formatOpcode_of_fmt (fun _ => rfl) (fun _ => rfl), formatOpcode_of_fmt (fun _ => rfl) (fun _ => rfl),
    fun s fmt f hf hwf => ?_⟩
  rw [exec_satadd hf, exec_satsub hf, operand_eq_rawOf hwf, operand_eq_rawOf hwf]
  exact ⟨clampedResponse_saturates s f _, clampedResponse_saturates s f _⟩

/-- Settles O29: the rounded value fits 64 bits, so its word reads as that value. -/
theorem rshrRoundsAndAlwaysFits : Obligations.RshrRoundsAndAlwaysFits := by
  refine ⟨plainOpcode_of_noFmt (i := .rshr) rfl, fun s => ?_⟩
  obtain ⟨hA0, hA1⟩ := readI64_bounds s.host.opA
  rw [← readSh6_eq, i64, ← readI64_eq]
  obtain ⟨h0, h1⟩ := rshiftRound_fits s.cfg.rounding hA0 hA1 (readSh6 s.host.opB)
  refine ⟨_, by rw [exec_rshr]; exact answers_respond s _ _ _, toInt_sext64 h0 h1, fun hs => ?_⟩
  rw [toInt_sext64 h0 h1]
  exact rshiftRound_natAbs_le s.cfg.rounding hA0 hA1 hs

/-- Settles O30: NARROW is the 64-bit integer through `resolve`. -/
theorem narrowFollowsTheOverflowPolicy : Obligations.NarrowFollowsTheOverflowPolicy := by
  refine ⟨formatOpcode_of_fmt (fun _ => rfl) (fun _ => rfl), fun s fmt f hf hwf => ?_⟩
  rw [exec_narrow hf, readI64_eq]
  exact resolvedResponse_followsPolicy s hwf _

end Sys2Proof.Machine
end

section
/-! SUPPORT. What each operation of the Q-format unit answers in a legal format, in the readings of the statements, and the laws of one
and zero they give (41_qformat.md R81 to R91). -/

namespace Sys2Proof.Machine

open Sys2Proof.Claims

/-! ### Ranges of raw values and of rounded values -/

theorem rawOf_between {f : Format} (hwf : f.wf = true) (x : Word) : lowest f ≤ rawOf f x ∧ rawOf f x ≤ highest f := by
  rw [← operand_eq_rawOf hwf]
  exact (inRange_iff_between f _).mp (operand_inRange (width_of_wf hwf).1 x)

theorem rawOf_zero (f : Format) : rawOf f 0 = 0 := by
  cases hs : f.sign <;> simp [rawOf, hs]

/-- In a format that holds 1.0 its raw value is in range (R87). -/
theorem two_pow_le_highest_of_oneFits {f : Format} (h : OneFits f) : 2 ^ f.frac ≤ highest f := by
  have hlt {n : Nat} (hn : f.frac < n) : (2 : Int) ^ f.frac < 2 ^ n := pow_lt_pow_right₀ one_lt_two hn
  cases hs : f.sign with
  | signed =>
    simp only [OneFits, hs] at h
    simp only [highest, hs]
    exact Int.le_sub_one_of_lt (hlt (by omega))
  | unsigned =>
    simp only [OneFits, hs] at h
    simp only [highest, hs]
    exact Int.le_sub_one_of_lt (hlt (by omega))

/-- With one fractional bit fewer, 1.0 fits every legal format: its raw value is then that of one half (R88). -/
theorem oneFits_of_fewer_frac {f : Format} (hwf : f.wf = true) (hf : 1 ≤ f.frac) :
    OneFits ⟨f.width, f.frac - 1, f.sign⟩ := by
  obtain ⟨-, hle, hlt⟩ := (Format.wf_iff f).mp hwf
  cases hs : f.sign with
  | signed =>
    have hlt := hlt hs
    simp only [OneFits]
    omega
  | unsigned =>
    simp only [OneFits]
    omega

theorem inRange_two_pow {f : Format} {k : Nat} (h : 2 ^ k ≤ highest f) : inRange f (2 ^ k) = true :=
  (inRange_iff_between f _).mpr ⟨(fmtMin_le_zero f).trans (by positivity), h⟩

/-- The rounding shift of an unsigned 64-bit value is an unsigned 64-bit value (R90). -/
theorem rshiftRound_fits_unsigned (mode : RoundingPolicy) {v : Int} (h0 : 0 ≤ v) (h1 : v < 2 ^ 64) (s : Nat) :
    0 ≤ rshiftRound mode v s ∧ rshiftRound mode v s < 2 ^ 64 := by
  refine ⟨rshiftRound_nonneg mode h0 s, ?_⟩
  obtain rfl | hs := Nat.eq_zero_or_pos s
  · exact h1
  · have h2 : (2 : Int) ≤ 2 ^ s := le_self_pow₀ one_le_two (by omega)
    have hhalf : v / 2 ^ s < 2 ^ 63 := (Int.ediv_lt_iff_lt_mul (by positivity)).mpr (by omega)
    have hup := (rshiftRound_bounds mode v s).2
    omega

/-- An unsigned 64-bit value is read back from its word. -/
theorem toNat_sext64 {v : Int} (h0 : 0 ≤ v) (h1 : v < 2 ^ 64) : ((sext64 v).toNat : Int) = v := by
  rw [sext64, BitVec.toNat_ofInt, Int.toNat_of_nonneg (Int.emod_nonneg _ (by decide))]
  exact Int.emod_eq_of_lt h0 h1

theorem rawOf_signed_fits {f : Format} (hwf : f.wf = true) (hs : f.sign = .signed) (x : Word) :
    -2 ^ 63 ≤ rawOf f x ∧ rawOf f x < 2 ^ 63 := by
  obtain ⟨h0, h1⟩ := rawOf_between hwf x
  simp only [lowest, highest, hs] at h0 h1
  have hw : (2 : Int) ^ (f.width - 1) ≤ 2 ^ 63 :=
    pow_le_pow_right₀ one_le_two (by have := (width_of_wf hwf).2; omega)
  omega

theorem rawOf_unsigned_fits {f : Format} (hwf : f.wf = true) (hs : f.sign = .unsigned) (x : Word) :
    0 ≤ rawOf f x ∧ rawOf f x < 2 ^ 64 := by
  obtain ⟨h0, h1⟩ := rawOf_between hwf x
  simp only [lowest, highest, hs] at h0 h1
  have hw : (2 : Int) ^ f.width ≤ 2 ^ 64 := pow_le_pow_right₀ one_le_two (width_of_wf hwf).2
  omega

/-! ### What the operations answer -/

section
variable {s : State} {fmt : Nat} {f : Format}

/-- A value in range answered as it is. -/
theorem answers_put_of_inRange (s : State) {v : Int} (h : inRange f v = true) (b : StatusBits) :
    Answers (answer (respond (put f v) 0 b) s) s (wordOf v) 0 (statusWord b) := by
  rw [put_eq_wordOf h]
  exact answers_respond s _ _ _

theorem exec_qmul_followsPolicy (hf : s.cfg.formats[fmt]? = some f) (hwf : f.wf = true) :
    FollowsPolicy s f (rshiftRound s.cfg.rounding (rawOf f s.host.opA * rawOf f s.host.opB) f.frac)
      (exec (.qmul fmt) s) := by
  rw [exec_qmul hf, operand_eq_rawOf hwf, operand_eq_rawOf hwf]
  exact resolvedResponse_followsPolicy s hwf _

/-- By 0, the extreme with the sign of the dividend and `DZ`, whatever the policy (R84). -/
theorem exec_qdiv_by_zero (hf : s.cfg.formats[fmt]? = some f) (hwf : f.wf = true) (hb : rawOf f s.host.opB = 0) :
    Answers (exec (.qdiv fmt) s) s (wordOf (if rawOf f s.host.opA < 0 then lowest f else highest f)) 0 0x01 := by
  rw [exec_qdiv hf, operand_eq_rawOf hwf, operand_eq_rawOf hwf, qdivResponse, if_pos hb]
  exact answers_put_of_inRange s (zeroDivisorValue_range f _) _

theorem exec_qdiv_followsPolicy (hf : s.cfg.formats[fmt]? = some f) (hwf : f.wf = true)
    (hb : rawOf f s.host.opB ≠ 0) :
    FollowsPolicy s f ((rawOf f s.host.opA * 2 ^ f.frac).tdiv (rawOf f s.host.opB)) (exec (.qdiv fmt) s) := by
  rw [exec_qdiv hf, operand_eq_rawOf hwf, operand_eq_rawOf hwf, qdivResponse, if_neg hb]
  exact resolvedResponse_followsPolicy s hwf _

theorem exec_qone_of_fits (hf : s.cfg.formats[fmt]? = some f) (h : 2 ^ f.frac ≤ highest f) :
    Answers (exec (.qone fmt) s) s (wordOf (2 ^ f.frac)) 0 0x00 := by
  have hin := inRange_two_pow h
  rw [exec_qone hf, oneOf, clampTo_of_inRange hin]
  exact answers_put_of_inRange s hin _

/-- Where 1.0 does not fit, the maximum, without a flag (R87). -/
theorem exec_qone_of_exceeds (hf : s.cfg.formats[fmt]? = some f) (h : highest f < 2 ^ f.frac) :
    Answers (exec (.qone fmt) s) s (wordOf (highest f)) 0 0x00 := by
  rw [exec_qone hf, oneOf, highest_eq, ← clampTo_of_gt h]
  exact answers_put_of_inRange s (clampTo_inRange f _) _

theorem exec_qhalf_of_pos (hf : s.cfg.formats[fmt]? = some f) (hwf : f.wf = true) (h : 1 ≤ f.frac) :
    Answers (exec (.qhalf fmt) s) s (wordOf (2 ^ (f.frac - 1))) 0 0x00 := by
  have hin : 2 ^ (f.frac - 1) ≤ highest f := two_pow_le_highest_of_oneFits (oneFits_of_fewer_frac hwf h)
  rw [exec_qhalf hf, halfOf, if_pos h]
  exact answers_put_of_inRange s (inRange_two_pow hin) _

theorem exec_qhalf_of_frac_zero (hf : s.cfg.formats[fmt]? = some f) (h : f.frac = 0) :
    Answers (exec (.qhalf fmt) s) s 0 0 0x00 := by
  have hin : inRange f 0 = true := (inRange_iff f 0).mpr ⟨fmtMin_le_zero f, zero_le_fmtMax f⟩
  rw [exec_qhalf hf, halfOf, if_neg (by omega)]
  exact answers_put_of_inRange s hin _

/-! ### The laws of one and zero -/

/-- The product with 1.0 is a multiple of `2^F`, which every mode shifts exactly (R91). -/
theorem exec_qmul_by_one (hf : s.cfg.formats[fmt]? = some f) (hwf : f.wf = true)
    (hb : rawOf f s.host.opB = 2 ^ f.frac) :
    Answers (exec (.qmul fmt) s) s (wordOf (rawOf f s.host.opA)) 0 0x00 := by
  obtain ⟨hexact, -⟩ := exec_qmul_followsPolicy hf hwf
  rw [hb, rshiftRound_exact] at hexact
  obtain ⟨h0, h1⟩ := rawOf_between hwf s.host.opA
  exact hexact h0 h1

theorem exec_qmul_by_zero (hf : s.cfg.formats[fmt]? = some f) (hwf : f.wf = true) (hb : rawOf f s.host.opB = 0) :
    Answers (exec (.qmul fmt) s) s 0 0 0x00 := by
  obtain ⟨hexact, -⟩ := exec_qmul_followsPolicy hf hwf
  have hzero := rshiftRound_exact s.cfg.rounding 0 f.frac
  rw [zero_mul] at hzero
  rw [hb, mul_zero, hzero] at hexact
  exact hexact (fmtMin_le_zero f) (zero_le_fmtMax f)

/-- The dividend scaled by `2^F` is divided by `2^F` without a remainder (R91). -/
theorem exec_qdiv_by_one (hf : s.cfg.formats[fmt]? = some f) (hwf : f.wf = true)
    (hb : rawOf f s.host.opB = 2 ^ f.frac) :
    Answers (exec (.qdiv fmt) s) s (wordOf (rawOf f s.host.opA)) 0 0x00 := by
  have hne : (2 : Int) ^ f.frac ≠ 0 := by positivity
  obtain ⟨hexact, -⟩ := exec_qdiv_followsPolicy hf hwf (hb ▸ hne)
  rw [hb, Int.mul_tdiv_cancel _ hne] at hexact
  obtain ⟨h0, h1⟩ := rawOf_between hwf s.host.opA
  exact hexact h0 h1

end

/-! ### The obligations of 41_qformat.md -/

/-- Settles O31: both operations are their exact value through `resolve`. -/
theorem qaddAndQsubFollowTheOverflowPolicy : Obligations.QaddAndQsubFollowTheOverflowPolicy := by
  refine ⟨formatOpcode_of_fmt (fun _ => rfl) (fun _ => rfl), formatOpcode_of_fmt (fun _ => rfl) (fun _ => rfl),
    fun s fmt f hf hwf => ?_⟩
  rw [exec_qadd hf, exec_qsub hf, operand_eq_rawOf hwf, operand_eq_rawOf hwf]
  exact ⟨resolvedResponse_followsPolicy s hwf _, resolvedResponse_followsPolicy s hwf _⟩

/-- Settles O32: the rescaled product is what goes through `resolve`. -/
theorem qmulRescalesTheExactProduct : Obligations.QmulRescalesTheExactProduct :=
  ⟨formatOpcode_of_fmt (fun _ => rfl) (fun _ => rfl), fun _ _ _ => exec_qmul_followsPolicy⟩

/-- Settles O33: the divisor 0 apart, the quotient toward zero goes through `resolve`. -/
theorem qdivDividesTowardZero : Obligations.QdivDividesTowardZero := by
  refine ⟨formatOpcode_of_fmt (fun _ => rfl) (fun _ => rfl), fun s fmt f hf hwf =>
    ⟨fun hb ha => ?_, fun hb ha => ?_, exec_qdiv_followsPolicy hf hwf⟩⟩
  · simpa only [if_pos ha] using exec_qdiv_by_zero hf hwf hb
  · simpa only [if_neg (not_lt.mpr ha)] using exec_qdiv_by_zero hf hwf hb

/-- Settles O34: both operations are their exact value through `resolve`. -/
theorem qabsAndQnegFollowTheOverflowPolicy : Obligations.QabsAndQnegFollowTheOverflowPolicy := by
  refine ⟨formatOpcode_of_fmt (fun _ => rfl) (fun _ => rfl), formatOpcode_of_fmt (fun _ => rfl) (fun _ => rfl),
    fun s fmt f hf hwf => ?_⟩
  rw [exec_qabs hf, exec_qneg hf, operand_eq_rawOf hwf, absI, Int.natCast_natAbs]
  exact ⟨resolvedResponse_followsPolicy s hwf _, resolvedResponse_followsPolicy s hwf _⟩

/-- Settles O35: the clamp of `2^F` bites only where 1.0 does not fit, and one half always fits. -/
theorem qoneAndQhalfAreTheConstants : Obligations.QoneAndQhalfAreTheConstants :=
  ⟨formatOpcode_of_fmt (fun _ => rfl) (fun _ => rfl), formatOpcode_of_fmt (fun _ => rfl) (fun _ => rfl),
    fun _ _ _ hf hwf => ⟨exec_qone_of_fits hf, exec_qone_of_exceeds hf, exec_qhalf_of_pos hf hwf,
      exec_qhalf_of_frac_zero hf⟩⟩

/-- Settles O36: the scaled integer goes through `resolve`. -/
theorem qfromintScalesTheInteger : Obligations.QfromintScalesTheInteger := by
  refine ⟨formatOpcode_of_fmt (fun _ => rfl) (fun _ => rfl), fun s fmt f hf hwf => ?_⟩
  rw [exec_qfromint hf, readI64_eq]
  exact resolvedResponse_followsPolicy s hwf _

/-- Settles O37: the rounded value fits 64 bits in the signedness of the format, so its word reads as that value. -/
theorem qtointRoundsByToIntMode : Obligations.QtointRoundsByToIntMode := by
  refine ⟨formatOpcode_of_fmt (fun _ => rfl) (fun _ => rfl), fun s fmt f hf hwf => ?_⟩
  refine ⟨_, by rw [exec_qtoint hf, operand_eq_rawOf hwf]; exact answers_respond s _ _ _, fun hs => ?_, fun hs => ?_⟩
  · obtain ⟨h0, h1⟩ := rawOf_signed_fits hwf hs s.host.opA
    obtain ⟨hlow, hhigh⟩ := rshiftRound_fits s.cfg.toIntMode h0 h1 f.frac
    exact toInt_sext64 hlow hhigh
  · obtain ⟨h0, h1⟩ := rawOf_unsigned_fits hwf hs s.host.opA
    obtain ⟨hlow, hhigh⟩ := rshiftRound_fits_unsigned s.cfg.toIntMode h0 h1 f.frac
    exact toNat_sext64 hlow hhigh

/-- Settles O38: the word of QONE reads back as `2^F`, which cancels in the product and in the quotient. -/
theorem qformatLawsOfOneAndZero : Obligations.QformatLawsOfOneAndZero := by
  intro s fmt f x hf hwf hone
  have hfits := two_pow_le_highest_of_oneFits hone
  have hreads : rawOf f (wordOf (2 ^ f.frac)) = 2 ^ f.frac :=
    rawOf_wordOf hwf ((fmtMin_le_zero f).trans (by positivity)) hfits
  exact ⟨wordOf (2 ^ f.frac), exec_qone_of_fits hf hfits,
    exec_qmul_by_one (s := withOperands s x _) hf hwf hreads,
    exec_qmul_by_zero (s := withOperands s x 0) hf hwf (rawOf_zero f),
    exec_qdiv_by_one (s := withOperands s x _) hf hwf hreads,
    exec_qdiv_by_zero (s := withOperands s x 0) hf hwf (rawOf_zero f)⟩

end Sys2Proof.Machine
end

section
/-! SUPPORT. The CORDIC iterations step by step, the angles and vectors that mirror each other, and what SINCOS and ATAN2M answer in
the readings of the statements (42_cordic.md R101 to R105). -/

namespace Sys2Proof.Machine

open Sys2Proof.Claims

/-! ### Rotation mode -/

theorem rotateStep_of_nonneg {v : CordicVec} (h : 0 ≤ v.z) (i : Nat) :
    rotateStep i v = ⟨v.x - v.y / 2 ^ i, v.y + v.x / 2 ^ i, v.z - atan16 i⟩ := if_pos h

theorem rotateStep_of_neg {v : CordicVec} (h : v.z < 0) (i : Nat) :
    rotateStep i v = ⟨v.x + v.y / 2 ^ i, v.y - v.x / 2 ^ i, v.z + atan16 i⟩ := if_neg (not_le.mpr h)

section
variable {v : CordicVec} {i : Nat}

theorem rotate_succ_of_nonneg (h : 0 ≤ (rotate v i).z) :
    (rotate v (i + 1)).x = (rotate v i).x - (rotate v i).y / 2 ^ i ∧
      (rotate v (i + 1)).y = (rotate v i).y + (rotate v i).x / 2 ^ i ∧
      (rotate v (i + 1)).z = (rotate v i).z - atan16 i := by
  rw [rotate, rotateStep_of_nonneg h]
  exact ⟨rfl, rfl, rfl⟩

theorem rotate_succ_of_neg (h : (rotate v i).z < 0) :
    (rotate v (i + 1)).x = (rotate v i).x + (rotate v i).y / 2 ^ i ∧
      (rotate v (i + 1)).y = (rotate v i).y - (rotate v i).x / 2 ^ i ∧
      (rotate v (i + 1)).z = (rotate v i).z + atan16 i := by
  rw [rotate, rotateStep_of_neg h]
  exact ⟨rfl, rfl, rfl⟩

end

theorem reducedAngle_eq (a : Int) : reducedAngle a = if |a| < 16384 then |a| else 32768 - |a| := by
  have habs : (if a < 0 then -a else a) = |a| := by
    split
    next h => exact (abs_of_neg h).symm
    next h => exact (abs_of_nonneg (not_lt.mp h)).symm
  simp only [reducedAngle, habs, ← not_lt, ite_not]

@[simp] theorem reducedAngle_neg (a : Int) : reducedAngle (-a) = reducedAngle a := by
  rw [reducedAngle_eq, reducedAngle_eq, abs_neg]

@[simp] theorem rotated_neg (n : Nat) (a : Int) : rotated n (-a) = rotated n a := by
  rw [rotated, rotated, reducedAngle_neg]

theorem clamp_eq_max_min {lo hi : Int} (h : lo ≤ hi) (v : Int) : clamp v lo hi = max lo (min hi v) := by
  rw [clamp]
  omega

theorem clamp_between {lo hi : Int} (h : lo ≤ hi) (v : Int) : lo ≤ clamp v lo hi ∧ clamp v lo hi ≤ hi := by
  rw [clamp]
  omega

theorem sinQ15_eq (c : Cfg) (a : Int) :
    sinQ15 c a = max (-32768) (min 32767
      (if a < 0 then -narrowQ15 c (rotated c.cordicN a).y else narrowQ15 c (rotated c.cordicN a).y)) := by
  rw [sinQ15, clamp_eq_max_min (by decide)]
  simp only [negateIf, negSin, decide_eq_true_eq]

theorem cosQ15_eq (c : Cfg) (a : Int) :
    cosQ15 c a = max (-32768) (min 32767
      (if 16384 ≤ |a| then -narrowQ15 c (rotated c.cordicN a).x else narrowQ15 c (rotated c.cordicN a).x)) := by
  rw [cosQ15, clamp_eq_max_min (by decide)]
  simp only [negateIf, negCos, absI, Int.natCast_natAbs, decide_eq_true_eq]

@[simp] theorem cosQ15_neg (c : Cfg) (a : Int) : cosQ15 c (-a) = cosQ15 c a := by
  rw [cosQ15_eq, cosQ15_eq, rotated_neg, abs_neg]

theorem sinQ15_between (c : Cfg) (a : Int) : -32768 ≤ sinQ15 c a ∧ sinQ15 c a ≤ 32767 := clamp_between (by decide) _

/-- Opposite sines add to 0, unless the clamp cuts the one that Q1.15 does not hold (R102 step 5). -/
theorem sinQ15_opposite (c : Cfg) {a : Int} (h : a ≠ 0) :
    sinQ15 c a + sinQ15 c (-a) = 0 ∨ (sinQ15 c a = 32767 ∧ sinQ15 c (-a) = -32768) ∨
      (sinQ15 c a = -32768 ∧ sinQ15 c (-a) = 32767) := by
  rw [sinQ15_eq, sinQ15_eq, rotated_neg]
  generalize narrowQ15 c (rotated c.cordicN a).y = sn
  obtain hneg | hpos := lt_or_gt_of_ne h
  · rw [if_pos hneg, if_neg (by omega)]
    omega
  · rw [if_neg (by omega), if_pos (by omega)]
    omega

/-! ### Vectoring mode -/

theorem vectorStep_of_nonneg {v : CordicVec} (h : 0 ≤ v.y) (i : Nat) :
    vectorStep i v = ⟨v.x + v.y / 2 ^ i, v.y - v.x / 2 ^ i, v.z + atan16 i⟩ := if_pos h

theorem vectorStep_of_neg {v : CordicVec} (h : v.y < 0) (i : Nat) :
    vectorStep i v = ⟨v.x - v.y / 2 ^ i, v.y + v.x / 2 ^ i, v.z - atan16 i⟩ := if_neg (not_le.mpr h)

section
variable {v : CordicVec} {i : Nat}

theorem vectorLoop_succ_of_nonneg (h : 0 ≤ (vectorLoop v i).y) :
    (vectorLoop v (i + 1)).x = (vectorLoop v i).x + (vectorLoop v i).y / 2 ^ i ∧
      (vectorLoop v (i + 1)).y = (vectorLoop v i).y - (vectorLoop v i).x / 2 ^ i ∧
      (vectorLoop v (i + 1)).z = (vectorLoop v i).z + atan16 i := by
  rw [vectorLoop, vectorStep_of_nonneg h]
  exact ⟨rfl, rfl, rfl⟩

theorem vectorLoop_succ_of_neg (h : (vectorLoop v i).y < 0) :
    (vectorLoop v (i + 1)).x = (vectorLoop v i).x - (vectorLoop v i).y / 2 ^ i ∧
      (vectorLoop v (i + 1)).y = (vectorLoop v i).y + (vectorLoop v i).x / 2 ^ i ∧
      (vectorLoop v (i + 1)).z = (vectorLoop v i).z - atan16 i := by
  rw [vectorLoop, vectorStep_of_neg h]
  exact ⟨rfl, rfl, rfl⟩

end

/-- No iteration of vectoring mode shortens the `x` component: the term it adds has the sign taken off. -/
theorem le_vectorStep_x (i : Nat) (v : CordicVec) : v.x ≤ (vectorStep i v).x := by
  have hp : (0 : Int) < 2 ^ i := by positivity
  obtain h | h := le_or_gt 0 v.y
  · have hterm : 0 ≤ v.y / 2 ^ i := Int.ediv_nonneg h hp.le
    rw [vectorStep_of_nonneg h]
    exact le_add_of_nonneg_right hterm
  · have hterm : v.y / 2 ^ i < 0 := Int.ediv_neg_of_neg_of_pos h hp
    rw [vectorStep_of_neg h]
    exact (le_sub_self_iff _).mpr hterm.le

theorem vectorLoop_x_nonneg {v : CordicVec} (h : 0 ≤ v.x) (n : Nat) : 0 ≤ (vectorLoop v n).x := by
  induction n with
  | zero => exact h
  | succ n ih => exact ih.trans (le_vectorStep_x n _)

theorem foldVector_eq (y x : Int) :
    foldVector y x = ⟨if x < 0 then |y| else x, if x < 0 then -x else |y|, if x < 0 then 16384 else 0⟩ := by
  simp only [foldVector, absI, Int.natCast_natAbs]
  split <;> rfl

@[simp] theorem foldVector_neg (y x : Int) : foldVector (-y) x = foldVector y x := by
  rw [foldVector_eq, foldVector_eq, abs_neg]

theorem foldVector_x_nonneg (y x : Int) : 0 ≤ (foldVector y x).x := by
  rw [foldVector_eq]
  split
  · exact abs_nonneg y
  · next h => exact not_lt.mp h

/-- Off the axes the larger component of the folded vector is 1 to `2^31` (R105). -/
theorem foldVector_max_between {y x : Int} (hx : x ≠ 0) (hx0 : -2 ^ 31 ≤ x) (hx1 : x < 2 ^ 31) (hy0 : -2 ^ 31 ≤ y)
    (hy1 : y < 2 ^ 31) :
    1 ≤ max (foldVector y x).x (foldVector y x).y ∧ max (foldVector y x).x (foldVector y x).y ≤ 2 ^ 31 := by
  have habs : |y| ≤ 2 ^ 31 := abs_le.mpr ⟨hy0, hy1.le⟩
  rw [foldVector_eq]
  split <;> dsimp only <;> omega

/-- The place of the highest set bit of the larger component of the folded vector, before normalising (R105). -/
def foldedMsb (y x : Int) : Nat := msb32 (max (foldVector y x).x (foldVector y x).y).toNat

theorem normShift_foldVector (y x : Int) : normShift (foldVector y x) = 29 - foldedMsb y x := by
  rw [normShift, foldedMsb]
  split <;> omega

theorem foldedMsb_spec {y x : Int} (hx : x ≠ 0) (hx0 : -2 ^ 31 ≤ x) (hx1 : x < 2 ^ 31) (hy0 : -2 ^ 31 ≤ y)
    (hy1 : y < 2 ^ 31) :
    2 ^ foldedMsb y x ≤ max (foldVector y x).x (foldVector y x).y ∧
      max (foldVector y x).x (foldVector y x).y < 2 ^ (foldedMsb y x + 1) := by
  obtain ⟨h0, h1⟩ := foldVector_max_between hx hx0 hx1 hy0 hy1
  rw [foldedMsb]
  obtain ⟨m, hm⟩ := Int.eq_ofNat_of_zero_le (zero_le_one.trans h0)
  rw [hm] at h0 h1 ⊢
  obtain ⟨hlow, hhigh⟩ := msb32_spec (u := m) (by omega) (by omega)
  exact ⟨by exact_mod_cast hlow, by exact_mod_cast hhigh⟩

/-- Where the iterations start: the folded vector brought to its working scale (R105). -/
theorem vectored_zero (y x : Int) :
    vectored 0 (foldVector y x) = ⟨(if x < 0 then |y| else x) * 2 ^ (29 - foldedMsb y x),
      (if x < 0 then -x else |y|) * 2 ^ (29 - foldedMsb y x), if x < 0 then 16384 else 0⟩ := by
  rw [vectored, normShift_foldVector, foldVector_eq]
  rfl

theorem vectored_foldVector_x_nonneg (n : Nat) (y x : Int) : 0 ≤ (vectored n (foldVector y x)).x :=
  vectorLoop_x_nonneg (mul_nonneg (foldVector_x_nonneg y x) (by positivity)) n

theorem invK30_nonneg (n : Nat) : 0 ≤ invK30 n := by
  have htable : ∀ v ∈ invK30Table, 0 ≤ v := by decide
  rw [invK30, List.getD_eq_getElem?_getD]
  cases h : invK30Table[n - 1]? with
  | none => decide
  | some v => exact htable v (List.mem_of_getElem? h)

theorem polarOff_eq (c : Cfg) (y x : Int) :
    polarOff c y x = ⟨if y < 0 then -(vectored c.cordicN (foldVector y x)).z else (vectored c.cordicN (foldVector y x)).z,
      rshiftRound c.rounding ((vectored c.cordicN (foldVector y x)).x * invK30 c.cordicN) (30 + (29 - foldedMsb y x))⟩ := by
  simp only [polarOff, normShift_foldVector, negateIf, decide_eq_true_eq]

theorem polarOff_mag_nonneg (c : Cfg) (y x : Int) : 0 ≤ (polarOff c y x).mag :=
  rshiftRound_nonneg _ (mul_nonneg (vectored_foldVector_x_nonneg _ y x) (invK30_nonneg _)) _

/-! ### ATAN2M on and off the axes -/

theorem polarOf_origin (c : Cfg) : polarOf c 0 0 = ⟨0, 0⟩ := rfl

theorem polarOf_xAxis_pos (c : Cfg) {x : Int} (h : 0 < x) : polarOf c 0 x = ⟨0, x⟩ := by
  simp [polarOf, h, h.ne', absI, abs_of_pos h]

theorem polarOf_xAxis_neg (c : Cfg) {x : Int} (h : x < 0) : polarOf c 0 x = ⟨32768, -x⟩ := by
  simp [polarOf, h.ne, not_lt.mpr h.le, absI, abs_of_neg h]

theorem polarOf_yAxis_pos (c : Cfg) {y : Int} (h : 0 < y) : polarOf c y 0 = ⟨16384, y⟩ := by
  simp [polarOf, h, h.ne', absI, abs_of_pos h]

theorem polarOf_yAxis_neg (c : Cfg) {y : Int} (h : y < 0) : polarOf c y 0 = ⟨-16384, -y⟩ := by
  simp [polarOf, h.ne, not_lt.mpr h.le, absI, abs_of_neg h]

theorem polarOf_off (c : Cfg) {y x : Int} (hy : y ≠ 0) (hx : x ≠ 0) : polarOf c y x = polarOff c y x := by
  simp [polarOf, hy, hx]

theorem polarOff_neg (c : Cfg) {y : Int} (hy : y ≠ 0) (x : Int) :
    polarOff c (-y) x = ⟨-(polarOff c y x).angle, (polarOff c y x).mag⟩ := by
  have hsign : decide (-y < 0) = !decide (y < 0) := by grind
  simp only [polarOff, foldVector_neg, hsign]
  cases decide (y < 0) <;> simp [negateIf]

/-- Mirroring in the x axis negates the angle and keeps the magnitude (R105). -/
theorem polarOf_neg (c : Cfg) {y : Int} (hy : y ≠ 0) (x : Int) :
    polarOf c (-y) x = ⟨-(polarOf c y x).angle, (polarOf c y x).mag⟩ := by
  obtain rfl | hx := eq_or_ne x 0
  · obtain hneg | hpos := lt_or_gt_of_ne hy
    · rw [polarOf_yAxis_neg c hneg, polarOf_yAxis_pos c (by omega)]
      rfl
    · rw [polarOf_yAxis_pos c hpos, polarOf_yAxis_neg c (by omega), neg_neg]
  · rw [polarOf_off c hy hx, polarOf_off c (neg_ne_zero.mpr hy) hx, polarOff_neg c hy]

/-! ### What the operations answer -/

/-- `sint_16(uint_16(v))` is the 16-bit pattern of `v`, read signed (R105). -/
theorem sintW_uintW (v : Int) : sintW 16 (uintW 16 v) = (BitVec.ofInt 16 v).toInt := by
  rw [← sintW_of_toNat (by decide), BitVec.toNat_ofInt, Int.toNat_of_nonneg (Int.emod_nonneg _ (by decide))]
  rfl

@[simp] theorem withOperands_opA (s : State) (a b : Word) : (withOperands s a b).host.opA = a := rfl
@[simp] theorem withOperands_opB (s : State) (a b : Word) : (withOperands s a b).host.opB = b := rfl

section
variable (s : State)

theorem exec_sincos_answers :
    Answers (exec .sincos s) s (wordOf (sinQ15 s.cfg (i16 s.host.opA))) (wordOf (cosQ15 s.cfg (i16 s.host.opA))) 0x00 := by
  rw [i16, ← readI16_eq, exec_sincos]
  exact answers_respond s _ _ _

theorem exec_atan2m_answers {y x : Int} (hy : i32 s.host.opA = y) (hx : i32 s.host.opB = x) :
    Answers (exec .atan2m s) s (wordOf (BitVec.ofInt 16 (polarOf s.cfg y x).angle).toInt)
      (zext64 (polarOf s.cfg y x).mag) 0x00 := by
  subst hy hx
  rw [i32, i32, ← readI32_eq, ← readI32_eq, exec_atan2m, polarResponse, sintW_uintW]
  exact answers_respond s _ _ _

/-- The same, where the angle and the magnitude are known. -/
theorem exec_atan2m_answers_of_polarOf {y x t m : Int} (hy : i32 s.host.opA = y) (hx : i32 s.host.opB = x)
    (h : polarOf s.cfg y x = ⟨t, m⟩) (hm : 0 ≤ m) :
    Answers (exec .atan2m s) s (wordOf (BitVec.ofInt 16 t).toInt) (wordOf m) 0x00 := by
  have hanswer := exec_atan2m_answers s hy hx
  rwa [h, zext64_of_nonneg hm] at hanswer

end

/-! ### The test points -/

/-- 45°, 8192 in brad16, after 16 iterations. -/
theorem rotated_eighthTurn : rotated 16 8192 = ⟨625065444, 625237478, 0⟩ := by decide

/-- The vector (1, 1) after 16 iterations. -/
theorem vectored_diagonal : vectored 16 (foldVector 1 1) = ⟨1250302930, -19414, 8190⟩ := by decide

theorem narrowQ15_between (c : Cfg) (v : Int) :
    v * invK30 c.cordicN / 2 ^ 44 ≤ narrowQ15 c v ∧ narrowQ15 c v ≤ v * invK30 c.cordicN / 2 ^ 44 + 1 :=
  rshiftRound_bounds _ _ _

section
variable {c : Cfg} (h : c.cordicN = 16)
include h

theorem sinQ15_eighthTurn : 23173 ≤ sinQ15 c 8192 ∧ sinQ15 c 8192 ≤ 23174 := by
  have hbounds := narrowQ15_between c 625237478
  have hfloor : 625237478 * invK30 16 / 2 ^ 44 = 23173 := by decide
  rw [h, hfloor] at hbounds
  have hy : (rotated c.cordicN 8192).y = 625237478 := by rw [h, rotated_eighthTurn]
  rw [sinQ15_eq, hy, if_neg (by decide)]
  omega

theorem cosQ15_eighthTurn : 23167 ≤ cosQ15 c 8192 ∧ cosQ15 c 8192 ≤ 23168 := by
  have hbounds := narrowQ15_between c 625065444
  have hfloor : 625065444 * invK30 16 / 2 ^ 44 = 23167 := by decide
  rw [h, hfloor] at hbounds
  have hx : (rotated c.cordicN 8192).x = 625065444 := by rw [h, rotated_eighthTurn]
  rw [cosQ15_eq, hx, if_neg (by decide)]
  omega

theorem polarOf_diagonal_angle : (polarOf c 1 1).angle = 8190 := by
  rw [polarOf_off c one_ne_zero one_ne_zero, polarOff_eq, h, vectored_diagonal]
  rfl

end

/-! ### The obligations of 42_cordic.md -/

/-- Settles O40: the sequences are the components of `rotated`, and the clamp is the model's. -/
theorem sincosRotatesTheReducedAngle : Obligations.SincosRotatesTheReducedAngle := by
  refine ⟨plainOpcode_of_noFmt (i := .sincos) rfl, fun s => ?_⟩
  have hanswer := exec_sincos_answers s
  rw [sinQ15_eq, cosQ15_eq] at hanswer
  exact ⟨fun i => (rotated i (i16 s.host.opA)).x, fun i => (rotated i (i16 s.host.opA)).y,
    fun i => (rotated i (i16 s.host.opA)).z, rfl, rfl, reducedAngle_eq _,
    fun _ _ => ⟨rotate_succ_of_nonneg, rotate_succ_of_neg⟩, hanswer⟩

/-- Settles O41: the reduced angle of `-a` is that of `a`, so only the sine's sign differs, before the clamp. -/
theorem sincosOfOppositeAngles : Obligations.SincosOfOppositeAngles := by
  intro s a b hab
  have hb : i16 b = -i16 a := by omega
  have hA := exec_sincos_answers (withOperands s a b)
  have hB := exec_sincos_answers (withOperands s b a)
  simp only [withOperands_cfg, withOperands_opA, hb, cosQ15_neg] at hA hB
  obtain ⟨hA0, hA1⟩ := sinQ15_between s.cfg (i16 a)
  obtain ⟨hB0, hB1⟩ := sinQ15_between s.cfg (-i16 a)
  exact ⟨_, _, _, hA, hB, hA0, hA1, hB0, hB1, sinQ15_opposite s.cfg⟩

/-- Settles O42: the sequences are the components of `vectored`, and the magnitude is not negative, so zero extension keeps it. -/
theorem atan2mVectorsTheFoldedPair : Obligations.Atan2mVectorsTheFoldedPair := by
  refine ⟨plainOpcode_of_noFmt (i := .atan2m) rfl, fun s => ⟨fun hx hy => ?_, fun hy hx => ?_, fun hy hx => ?_,
    fun hx hy => ?_, fun hx hy => ?_, fun hx hy => ?_⟩⟩
  · exact exec_atan2m_answers_of_polarOf s hy hx (polarOf_origin _) le_rfl
  · exact exec_atan2m_answers_of_polarOf s hy rfl (polarOf_xAxis_pos _ hx) hx.le
  · exact exec_atan2m_answers_of_polarOf s hy rfl (polarOf_xAxis_neg _ hx) (by omega)
  · exact exec_atan2m_answers_of_polarOf s rfl hx (polarOf_yAxis_pos _ hy) hy.le
  · exact exec_atan2m_answers_of_polarOf s rfl hx (polarOf_yAxis_neg _ hy) (by omega)
  · obtain ⟨hx0, hx1⟩ := readI32_bounds s.host.opB
    obtain ⟨hy0, hy1⟩ := readI32_bounds s.host.opA
    rw [readI32_eq] at hx0 hx1 hy0 hy1
    obtain ⟨hlow, hhigh⟩ := foldedMsb_spec hx hx0 hx1 hy0 hy1
    have hstart := vectored_zero (i32 s.host.opA) (i32 s.host.opB)
    rw [foldVector_eq] at hlow hhigh
    have hmag := polarOff_mag_nonneg s.cfg (i32 s.host.opA) (i32 s.host.opB)
    have hpolar := (polarOf_off s.cfg hy hx).trans (polarOff_eq s.cfg _ _)
    rw [polarOff_eq] at hmag
    let v := foldVector (i32 s.host.opA) (i32 s.host.opB)
    exact ⟨_, fun i => (vectored i v).x, fun i => (vectored i v).y, fun i => (vectored i v).z, hlow, hhigh,
      congrArg CordicVec.x hstart, congrArg CordicVec.y hstart, congrArg CordicVec.z hstart,
      fun _ _ => ⟨vectorLoop_succ_of_nonneg, vectorLoop_succ_of_neg⟩,
      exec_atan2m_answers_of_polarOf s rfl rfl hpolar hmag⟩

/-- Settles O43: `foldVector` does not see the sign of `y`, which negates the angle at the end. -/
theorem atan2mOfAMirroredVector : Obligations.Atan2mOfAMirroredVector := by
  intro s y y' x hyy
  have hy' : i32 y' = -i32 y := by omega
  have hA := exec_atan2m_answers (withOperands s y x) rfl rfl
  have hB := exec_atan2m_answers (withOperands s y' x) rfl rfl
  simp only [withOperands_cfg, withOperands_opA, withOperands_opB, hy'] at hA hB
  obtain hy | hy := eq_or_ne (i32 y) 0
  · rw [hy] at hA hB
    exact ⟨_, _, _, hA, hB, fun h => absurd hy h⟩
  · rw [polarOf_neg s.cfg hy] at hB
    exact ⟨_, _, _, hA, hB, fun _ => BitVec.ofInt_neg⟩

/-- Settles O44: on the axes the angle is exact; 45° and the vector (1, 1) are evaluated up to the rounding, which moves the result
by at most one unit. -/
theorem cordicMeetsItsTestPoints : Obligations.CordicMeetsItsTestPoints := by
  refine ⟨fun s hn ha => ?_, fun s hn => ⟨fun ha hb => ?_, fun ha hb => ?_, fun ha hb => ?_, fun ha hb => ?_⟩⟩
  · have hanswer := exec_sincos_answers s
    rw [ha, show i16 8192 = 8192 by decide] at hanswer
    have hsin := sinQ15_eighthTurn hn
    have hcos := cosQ15_eighthTurn hn
    exact ⟨_, _, hanswer, abs_le.mpr (by omega), abs_le.mpr (by omega)⟩
  · exact ⟨_, exec_atan2m_answers_of_polarOf s (by rw [ha]; rfl) (by rw [hb]; rfl)
      (polarOf_xAxis_pos _ one_pos) zero_le_one⟩
  · exact ⟨_, exec_atan2m_answers_of_polarOf s (by rw [ha]; rfl) (by rw [hb]; rfl)
      (polarOf_yAxis_pos _ one_pos) zero_le_one⟩
  · exact ⟨_, exec_atan2m_answers_of_polarOf s (by rw [ha]; rfl) (by rw [hb]; rfl)
      (polarOf_xAxis_neg _ neg_one_lt_zero) zero_le_one⟩
  · have hanswer := exec_atan2m_answers s (y := 1) (x := 1) (by rw [ha]; rfl) (by rw [hb]; rfl)
    rw [polarOf_diagonal_angle hn] at hanswer
    exact ⟨8190, _, hanswer, by decide⟩

end Sys2Proof.Machine
end

section
/-! SUPPORT. The reciprocal as an exact floor, the seed and the fixed points of the inverse square root, and what RECIP32, ISQRT16, SQRT16
and FDIV16 answer in the readings of the statements (43_newton.md R120 to R125). -/

namespace Sys2Proof.Machine

open Sys2Proof.Claims

theorem readI32_eq_i32 (x : Word) : readI32 x = i32 x := readI32_eq x

/-! ### The reciprocal -/

theorem recipValue_of_le_one {x : Nat} (h : x ≤ 1) : recipValue x = 0xFFFFFFFF := if_pos h

theorem recipValue_of_two_le {x : Nat} (h : 2 ≤ x) : recipValue x = 2 ^ 32 / x := if_neg (by omega)

/-- The reciprocal is the exact floor: one more would pass `2^32` (R120). -/
theorem recipValue_isFloor {x : Nat} (h : 2 ≤ x) : recipValue x * x ≤ 2 ^ 32 ∧ 2 ^ 32 < (recipValue x + 1) * x := by
  rw [recipValue_of_two_le h, Nat.mul_comm (_ + 1)]
  exact ⟨Nat.div_mul_le_self _ x, Nat.lt_mul_div_succ _ (by omega)⟩

theorem recipValue_le {x : Nat} (h : 2 ≤ x) : recipValue x ≤ 2 ^ 31 := by
  rw [recipValue_of_two_le h]
  exact Nat.div_le_div_left h two_pos

theorem isReciprocal_recipValue (x : Nat) : IsReciprocal x (recipValue x) :=
  ⟨fun h => recipValue_of_le_one h.le, recipValue_isFloor⟩

/-! ### The inverse square root -/

/-- The shift by 1 after adding 1 is the ceiling of the half (R123). -/
theorem asr_succ_one_isCeilHalf (e : Int) : 2 * asr (e + 1) 1 - 1 ≤ e ∧ e ≤ 2 * asr (e + 1) 1 := by
  rw [asr, pow_one]
  omega

theorem msb32_two_pow {n : Nat} (h : n < 32) : msb32 (2 ^ n) = n := by
  obtain ⟨hlow, hhigh⟩ := msb32_spec (Nat.two_pow_pos n) (Nat.pow_lt_pow_right one_lt_two h)
  have hle := (Nat.pow_le_pow_iff_right one_lt_two).mp hlow
  have hlt := (Nat.pow_lt_pow_iff_right one_lt_two).mp hhigh
  omega

/-- A positive 32-bit operand has its highest bit at one of the places 0 to 30, as R123's `ex` reads it. -/
theorem msb32_i32 {x : Int} (h0 : 0 < x) (h1 : x < 2 ^ 31) :
    msb32 x.toNat ≤ 30 ∧ 2 ^ msb32 x.toNat ≤ x ∧ x < 2 ^ (msb32 x.toNat + 1) := by
  lift x to Nat using h0.le
  rw [Int.toNat_natCast]
  obtain ⟨hlow, hhigh⟩ := msb32_spec (u := x) (by omega) (by omega)
  have hplace : msb32 x < 31 := (Nat.pow_lt_pow_iff_right one_lt_two).mp (hlow.trans_lt (by omega))
  exact ⟨by omega, by exact_mod_cast hlow, by exact_mod_cast hhigh⟩

theorem four_pow_mul_two_pow (j k : Nat) : (4 : Int) ^ j * 2 ^ k = 2 ^ (2 * j + k) := by
  rw [pow_add, pow_mul]
  rfl

theorem isqrtSeed_four_pow {j : Nat} (h : j ≤ 15) : isqrtSeed (4 ^ j) = 2 ^ (24 - j) := by
  have hx : ((4 : Int) ^ j).toNat = 2 ^ (2 * j) := by
    rw [pow_mul, Int.toNat_pow_of_nonneg (by decide)]
    rfl
  have hexp : (16 - asr ((2 * j : Nat) - 16 + 1) 1).toNat = 24 - j := by
    rw [asr, pow_one]
    omega
  rw [isqrtSeed, hx, msb32_two_pow (by omega), hexp]

/-- Where `x · y²` is exactly 1.0, a refinement leaves `y` as it is, in every mode (R123). -/
theorem isqrtStep_of_exact (mode : RoundingPolicy) {x y : Int} (h : x * y * y = 2 ^ 16 * 2 ^ 32) :
    isqrtStep mode x y = y := by
  have hy : y * (3 * 2 ^ 16 - 2 ^ 16) = y * 2 ^ 17 := by ring
  rw [isqrtStep, h, rshiftRound_exact]
  exact hy ▸ rshiftRound_exact mode y 17

theorem isqrtIterate_of_exact (mode : RoundingPolicy) {x y : Int} (h : x * y * y = 2 ^ 16 * 2 ^ 32) (n : Nat) :
    isqrtIterate mode x y n = y := by
  induction n with
  | zero => rfl
  | succ n ih => rw [isqrtIterate, ih, isqrtStep_of_exact mode h]

theorem isqrtValue_four_pow (c : Cfg) {j : Nat} (h : j ≤ 15) : isqrtValue c (4 ^ j) = 2 ^ (24 - j) := by
  have hexact : (4 : Int) ^ j * 2 ^ (24 - j) * 2 ^ (24 - j) = 2 ^ 16 * 2 ^ 32 := by
    rw [four_pow_mul_two_pow, ← pow_add, ← pow_add]
    congr 1
    omega
  rw [isqrtValue, isqrtSeed_four_pow h]
  exact isqrtIterate_of_exact c.rounding hexact _

/-- The product `x · x^(-1/2)` at a power of four is a multiple of `2^16`, which every mode shifts exactly (R124). -/
theorem rshiftRound_four_pow_mul_isqrt (mode : RoundingPolicy) {j : Nat} (h : j ≤ 15) :
    rshiftRound mode (4 ^ j * 2 ^ (24 - j)) 16 = 2 ^ (8 + j) := by
  have hproduct : (4 : Int) ^ j * 2 ^ (24 - j) = 2 ^ (8 + j) * 2 ^ 16 := by
    rw [four_pow_mul_two_pow, ← pow_add]
    congr 1
    omega
  rw [hproduct, rshiftRound_exact]

/-! ### The quotient through the reciprocal -/

theorem fdivQuotient_of_sameSign (mode : RoundingPolicy) {a b : Int} (h : a < 0 ↔ b < 0) :
    fdivQuotient mode a b = rshiftRound mode (|a| * recipValue b.natAbs) 16 := by
  rw [fdivQuotient, absI, Int.natCast_natAbs]
  exact if_neg (not_not.mpr (decide_eq_decide.mpr h))

theorem fdivQuotient_of_differentSign (mode : RoundingPolicy) {a b : Int} (h : ¬(a < 0 ↔ b < 0)) :
    fdivQuotient mode a b = -rshiftRound mode (|a| * recipValue b.natAbs) 16 := by
  rw [fdivQuotient, absI, Int.natCast_natAbs]
  exact if_pos (mt decide_eq_decide.mp h)

/-- The reciprocal of 1.0 is `2^16`, which the shift by 16 takes back exactly, in every mode (R125). -/
theorem fdivQuotient_by_one (mode : RoundingPolicy) (a : Int) : fdivQuotient mode a 0x10000 = a := by
  have hone : ((recipValue (Int.natAbs 0x10000) : Nat) : Int) = 2 ^ 16 := by decide
  obtain ha | ha := lt_or_ge a 0
  · rw [fdivQuotient_of_differentSign mode (by omega), hone, rshiftRound_exact, abs_of_neg ha, neg_neg]
  · rw [fdivQuotient_of_sameSign mode (by omega), hone, rshiftRound_exact, abs_of_nonneg ha]

/-! ### What the operations answer -/

section
variable (s : State)

theorem exec_recip32_answers :
    Answers (exec .recip32 s) s (BitVec.ofNat 64 (recipValue (u32 s.host.opA))) 0
      (statusWord { dz := decide (u32 s.host.opA = 0) }) := by
  rw [u32, ← readU32_eq, exec_recip32]
  exact answers_respond s _ _ _

variable {s}

theorem exec_isqrt16_of_neg (h : i32 s.host.opA < 0) : Answers (exec .isqrt16 s) s 0x7FFFFFFF 0 0x02 := by
  rw [exec_isqrt16, readI32_eq_i32, isqrtResponse, if_pos h]
  exact answers_respond s _ _ _

theorem exec_isqrt16_of_zero (h : i32 s.host.opA = 0) : Answers (exec .isqrt16 s) s 0x7FFFFFFF 0 0x01 := by
  rw [exec_isqrt16, readI32_eq_i32, isqrtResponse, if_neg (by omega), if_pos h]
  exact answers_respond s _ _ _

theorem exec_isqrt16_of_pos (h : 0 < i32 s.host.opA) :
    Answers (exec .isqrt16 s) s (wordOf (isqrtValue s.cfg (i32 s.host.opA))) 0 0x00 := by
  rw [exec_isqrt16, readI32_eq_i32, isqrtResponse, if_neg (by omega), if_neg (by omega)]
  exact answers_respond s _ _ _

theorem exec_sqrt16_of_neg (h : i32 s.host.opA < 0) : Answers (exec .sqrt16 s) s 0 0 0x02 := by
  rw [exec_sqrt16, readI32_eq_i32, sqrtResponse, if_pos h]
  exact answers_respond s _ _ _

theorem exec_sqrt16_of_zero (h : i32 s.host.opA = 0) : Answers (exec .sqrt16 s) s 0 0 0x00 := by
  rw [exec_sqrt16, readI32_eq_i32, sqrtResponse, if_neg (by omega), if_pos h]
  exact answers_respond s _ _ _

theorem exec_sqrt16_of_pos (h : 0 < i32 s.host.opA) :
    Answers (exec .sqrt16 s) s
      (wordOf (rshiftRound s.cfg.rounding (i32 s.host.opA * isqrtValue s.cfg (i32 s.host.opA)) 16)) 0 0x00 := by
  rw [exec_sqrt16, readI32_eq_i32, sqrtResponse, if_neg (by omega), if_neg (by omega)]
  exact answers_respond s _ _ _

/-- By 0, the extreme with the sign of the dividend and `DZ`, whatever the policy (R125). -/
theorem exec_fdiv16_by_zero (h : i32 s.host.opB = 0) :
    Answers (exec .fdiv16 s) s (wordOf (if i32 s.host.opA < 0 then lowest signed32 else highest signed32)) 0 0x01 := by
  rw [exec_fdiv16, readI32_eq_i32, readI32_eq_i32, fdivResponse, if_pos h]
  exact answers_put_of_inRange s (zeroDivisorValue_range q16 _) _

theorem exec_fdiv16_followsPolicy (h : i32 s.host.opB ≠ 0) :
    FollowsPolicy s signed32 (fdivQuotient s.cfg.rounding (i32 s.host.opA) (i32 s.host.opB)) (exec .fdiv16 s) := by
  rw [exec_fdiv16, readI32_eq_i32, readI32_eq_i32, fdivResponse, if_neg h]
  exact resolvedResponse_followsPolicy s rfl _

end

/-! ### The obligations of 43_newton.md -/

/-- Settles O45: the value is 0xFFFFFFFF at 0 and 1, and from 2 up a floor of at most `2^31`. -/
theorem recip32IsTheExactFloor : Obligations.Recip32IsTheExactFloor := by
  refine ⟨plainOpcode_of_noFmt (i := .recip32) rfl, fun s => ?_⟩
  have hanswer := exec_recip32_answers s
  refine ⟨fun h => ?_, fun h => ?_, fun h => ?_⟩
  · rwa [h] at hanswer
  · rwa [h] at hanswer
  · rw [decide_eq_false (by omega)] at hanswer
    exact ⟨_, hanswer, recipValue_le h, recipValue_isFloor h⟩

/-- Settles O46: the sequence is `isqrtIterate` from the seed, whose exponent is the ceiling of half the operand's. -/
theorem inverseSquareRootRefinesItsSeed : Obligations.InverseSquareRootRefinesItsSeed := by
  refine ⟨plainOpcode_of_noFmt (i := .isqrt16) rfl, plainOpcode_of_noFmt (i := .sqrt16) rfl, fun s =>
    ⟨fun h => ⟨exec_isqrt16_of_neg h, exec_sqrt16_of_neg h⟩, fun h => ⟨exec_isqrt16_of_zero h, exec_sqrt16_of_zero h⟩,
      fun h => ?_⟩⟩
  obtain ⟨-, hmax⟩ := readI32_bounds s.host.opA
  obtain ⟨hplace, hlow, hhigh⟩ := msb32_i32 h (readI32_eq_i32 _ ▸ hmax)
  obtain ⟨hceil, hhalf⟩ := asr_succ_one_isCeilHalf ((msb32 (i32 s.host.opA).toNat : Int) - 16)
  exact ⟨msb32 (i32 s.host.opA).toNat, _, isqrtIterate s.cfg.rounding (i32 s.host.opA) (isqrtSeed (i32 s.host.opA)),
    by omega, by omega, hlow, hhigh, hceil, hhalf, rfl, fun _ _ => rfl, exec_isqrt16_of_pos h, exec_sqrt16_of_pos h⟩

/-- Settles O47: the seed of a power of four is a fixed point of the refinement. -/
theorem squareRootsOfPowersOfFourAreExact : Obligations.SquareRootsOfPowersOfFourAreExact := by
  intro s j hj hx
  have hpos : 0 < i32 s.host.opA := hx ▸ by positivity
  have hisqrt := exec_isqrt16_of_pos hpos
  have hsqrt := exec_sqrt16_of_pos hpos
  rw [hx, isqrtValue_four_pow s.cfg hj] at hisqrt hsqrt
  rw [rshiftRound_four_pow_mul_isqrt s.cfg.rounding hj] at hsqrt
  exact ⟨hisqrt, hsqrt⟩

/-- Settles O48: the divisor 0 apart, the quotient of the magnitudes with its sign restored goes through `resolve`. -/
theorem fdiv16DividesThroughTheReciprocal : Obligations.Fdiv16DividesThroughTheReciprocal := by
  refine ⟨plainOpcode_of_noFmt (i := .fdiv16) rfl, fun s => ⟨fun hb ha => ?_, fun hb ha => ?_, fun hb =>
    ⟨_, isReciprocal_recipValue _, fun h => ?_, fun h => ?_⟩⟩⟩
  · have hzero := exec_fdiv16_by_zero hb
    rw [if_pos ha] at hzero
    exact hzero
  · have hzero := exec_fdiv16_by_zero hb
    rw [if_neg (not_lt.mpr ha)] at hzero
    exact hzero
  · exact fdivQuotient_of_sameSign s.cfg.rounding h ▸ exec_fdiv16_followsPolicy hb
  · exact fdivQuotient_of_differentSign s.cfg.rounding h ▸ exec_fdiv16_followsPolicy hb

/-- Settles O49: the quotient by 1.0 is the dividend, which is in range, so no policy touches it. -/
theorem fdiv16ByOneIsTheDividend : Obligations.Fdiv16ByOneIsTheDividend := by
  intro s hb
  obtain ⟨hexact, -⟩ := exec_fdiv16_followsPolicy (s := s) (by omega)
  rw [hb, fdivQuotient_by_one] at hexact
  obtain ⟨h0, h1⟩ := rawOf_between (f := signed32) rfl s.host.opA
  exact hexact h0 h1

end Sys2Proof.Machine
end

section
/-! SUPPORT. The restoring loop as exact division, the quotient of the magnitudes with its sign restored as the quotient toward zero,
and what DIV32 and SDIV32 answer in the readings of the statements (44_divider.md R140, R141). -/

namespace Sys2Proof.Machine

open Sys2Proof.Claims

/-! ### The restoring loop -/

/-- The working values before the iterations `n-1` downto 0: the remainder and the quotient of the bits of `a` brought down so far, the
quotient in its final place. -/
def leadingDivision (a b n : Nat) : DivState := ⟨a / 2 ^ n % b, a / 2 ^ n / b * 2 ^ n⟩

/-- Bringing down the lowest bit of `m`, the trial subtraction gives the last bit of the quotient (R140). -/
theorem div_mod_of_trial {m b : Nat} (hb : 0 < b) :
    if b ≤ 2 * (m / 2 % b) + m % 2 then m / b = 2 * (m / 2 / b) + 1 ∧ m % b = 2 * (m / 2 % b) + m % 2 - b
    else m / b = 2 * (m / 2 / b) ∧ m % b = 2 * (m / 2 % b) + m % 2 := by
  have hlow : m / 2 % b < b := Nat.mod_lt _ hb
  have hhalf : m / 2 % b + b * (m / 2 / b) = m / 2 := Nat.mod_add_div (m / 2) b
  have hdouble : b * (2 * (m / 2 / b)) = 2 * (b * (m / 2 / b)) := Nat.mul_left_comm b 2 _
  split
  next hfits =>
    refine (Nat.div_mod_unique hb).mpr ⟨?_, by omega⟩
    rw [Nat.mul_succ]
    omega
  next hfits => exact (Nat.div_mod_unique hb).mpr ⟨by omega, by omega⟩

theorem divideStep_leadingDivision (a n : Nat) {b : Nat} (hb : 0 < b) :
    divideStep a b n (leadingDivision a b (n + 1)) = leadingDivision a b n := by
  have htrial := div_mod_of_trial (m := a / 2 ^ n) hb
  have hleading : a / 2 ^ (n + 1) = a / 2 ^ n / 2 := by rw [pow_succ, Nat.div_div_eq_div_mul]
  simp only [divideStep, leadingDivision, hleading]
  split at htrial
  next hfits =>
    obtain ⟨hq, hr⟩ := htrial
    rw [if_pos hfits, hq, hr]
    congr 1
    ring
  next hfits =>
    obtain ⟨hq, hr⟩ := htrial
    rw [if_neg hfits, hq, hr]
    congr 1
    ring

theorem divideLoop_leadingDivision (a : Nat) {b : Nat} (hb : 0 < b) (n : Nat) :
    divideLoop a b n (leadingDivision a b n) = ⟨a % b, a / b⟩ := by
  induction n with
  | zero => simp [divideLoop, leadingDivision]
  | succ n ih => rw [divideLoop, divideStep_leadingDivision a n hb, ih]

/-- A 32-bit dividend has no bits above the 32 the loop brings down, so the loop starts from zero (R140). -/
theorem leadingDivision_of_lt {a n : Nat} (h : a < 2 ^ n) (b : Nat) : leadingDivision a b n = ⟨0, 0⟩ := by
  simp [leadingDivision, Nat.div_eq_of_lt h]

theorem divide32_eq {a b : Nat} (ha : a < 2 ^ 32) (hb : 0 < b) : divide32 a b = ⟨a % b, a / b⟩ := by
  rw [divide32, ← leadingDivision_of_lt ha b]
  exact divideLoop_leadingDivision a hb 32

/-! ### The signed quotient -/

/-- The sign of the quotient of the magnitudes is restored: each case is an equation of the division toward zero (R141). -/
theorem sdivQuotient_eq_tdiv {a b : Int} (ha : a.natAbs < 2 ^ 32) (hb : b ≠ 0) : sdivQuotient a b = a.tdiv b := by
  rw [sdivQuotient, divide32_eq ha (Int.natAbs_pos.mpr hb)]
  match a, b with
  | .ofNat _, .ofNat _ => rfl
  | .ofNat _, .negSucc _ => exact if_pos (by simp)
  | .negSucc _, .ofNat _ => exact if_pos (by simp)
  | .negSucc _, .negSucc _ => exact if_neg (by simp)

theorem natAbs_i32_lt (x : Word) : (i32 x).natAbs < 2 ^ 32 := by
  obtain ⟨hmin, hmax⟩ := readI32_bounds x
  rw [readI32_eq_i32] at hmin hmax
  omega

/-! ### What the operations answer -/

section
variable {s : State}

theorem exec_div32_by_zero (h : u32 s.host.opB = 0) : Answers (exec .div32 s) s 0xFFFFFFFF 0 0x01 := by
  rw [u32, ← readU32_eq] at h
  rw [exec_div32, div32Response, if_pos h]
  exact answers_respond s _ _ _

theorem exec_div32_of_ne_zero (h : u32 s.host.opB ≠ 0) :
    Answers (exec .div32 s) s (BitVec.ofNat 64 (u32 s.host.opA / u32 s.host.opB)) 0 0x00 := by
  have hA : u32 s.host.opA < 2 ^ 32 := BitVec.isLt _
  rw [exec_div32, readU32_eq, readU32_eq, ← u32, ← u32, div32Response, if_neg h, divide32_eq hA (Nat.pos_of_ne_zero h)]
  exact answers_respond s _ _ _

/-- By 0, the extreme with the sign of the dividend and `DZ`, whatever the policy (R141). -/
theorem exec_sdiv32_by_zero (h : i32 s.host.opB = 0) :
    Answers (exec .sdiv32 s) s (wordOf (if i32 s.host.opA < 0 then lowest signed32 else highest signed32)) 0 0x01 := by
  rw [exec_sdiv32, readI32_eq_i32, readI32_eq_i32, sdiv32Response, if_pos h]
  exact answers_put_of_inRange s (zeroDivisorValue_range q16 _) _

theorem exec_sdiv32_followsPolicy (h : i32 s.host.opB ≠ 0) :
    FollowsPolicy s signed32 ((i32 s.host.opA).tdiv (i32 s.host.opB)) (exec .sdiv32 s) := by
  rw [exec_sdiv32, readI32_eq_i32, readI32_eq_i32, sdiv32Response, if_neg h, sdivQuotient_eq_tdiv (natAbs_i32_lt _) h]
  exact resolvedResponse_followsPolicy s rfl _

end

/-! ### The obligations of 44_divider.md -/

/-- Settles O50: before each iteration the loop holds the remainder and quotient of the dividend's bits brought down so far. -/
theorem restoringDivisionIsTheExactFloor : Obligations.RestoringDivisionIsTheExactFloor :=
  ⟨plainOpcode_of_noFmt (i := .div32) rfl, fun _ => ⟨exec_div32_by_zero, exec_div32_of_ne_zero⟩, fun _ _ => divide32_eq⟩

/-- Settles O51: the divisor 0 apart, the quotient of the magnitudes with its sign restored is `tdiv` and goes through `resolve`. -/
theorem sdiv32DividesTowardZero : Obligations.Sdiv32DividesTowardZero := by
  refine ⟨plainOpcode_of_noFmt (i := .sdiv32) rfl, fun s => ⟨fun hb ha => ?_, fun hb ha => ?_, exec_sdiv32_followsPolicy⟩⟩
  · have hzero := exec_sdiv32_by_zero hb
    rw [if_pos ha] at hzero
    exact hzero
  · have hzero := exec_sdiv32_by_zero hb
    rw [if_neg (not_lt.mpr ha)] at hzero
    exact hzero

end Sys2Proof.Machine
end

section
/-! SUPPORT. The sizes of the Q16.16 products of EXP16 and LN16, the reduced argument and the polynomial of EXP16, the normalised mantissa
and the series of LN16, both at powers of two, and what the two operations answer in the readings of the statements (45_explog.md R151,
R153). -/

namespace Sys2Proof.Machine

open Sys2Proof.Claims

/-! ### Q16.16 products -/

@[simp] theorem mulQ16_zero_left (mode : RoundingPolicy) (b : Int) : mulQ16 mode 0 b = 0 := by
  simpa [mulQ16] using rshiftRound_exact mode 0 16

/-- The values of magnitude at most one half are closed under the product, in every mode. -/
theorem abs_mulQ16_le_half (mode : RoundingPolicy) {a b : Int} (ha : |a| ≤ 2 ^ 15) (hb : |b| ≤ 2 ^ 15) :
    |mulQ16 mode a b| ≤ 2 ^ 15 := by
  have hproduct : |a * b| ≤ 2 ^ 15 * 2 ^ 15 := by
    rw [abs_mul]
    exact mul_le_mul ha hb (abs_nonneg b) (by norm_num)
  obtain ⟨hfloor, hceil⟩ := rshiftRound_bounds mode (a * b) 16
  rw [abs_le] at hproduct ⊢
  unfold mulQ16
  omega

theorem mulQ16_between (mode : RoundingPolicy) {a b : Int} (ha : 0 ≤ a ∧ a ≤ 2 ^ 15) (hb : 0 ≤ b ∧ b ≤ 2 ^ 15) :
    0 ≤ mulQ16 mode a b ∧ mulQ16 mode a b ≤ 2 ^ 15 :=
  ⟨rshiftRound_nonneg mode (mul_nonneg ha.1 hb.1) 16,
    le_of_abs_le (abs_mulQ16_le_half mode (abs_le.mpr (by omega)) (abs_le.mpr (by omega)))⟩

/-! ### Shifts of powers of two -/

theorem shl_two_pow {p n : Nat} (h : p ≤ n) : shl (2 ^ p) (n - p) = 2 ^ n := pow_mul_pow_sub 2 h

theorem asr_two_pow {p n : Nat} (h : p ≤ n) : asr (2 ^ n) (n - p) = 2 ^ p := by
  rw [asr, ← pow_mul_pow_sub 2 h]
  exact Int.mul_ediv_cancel _ (by positivity)

/-! ### The exponential -/

/-- With `k` in its window the reduced argument is below one half: the rounding of `k` and of the two constants costs little (R151). -/
theorem abs_expR_le_half {x : Int} (h0 : -16 ≤ expK x) (h1 : expK x ≤ 15) : |expR x| ≤ 2 ^ 15 := by
  simp only [expR, expK, asr, ln2Q16, invLn2Q16, abs_le] at h0 h1 ⊢
  omega

/-- The square is not negative, and `1 + r` outweighs the third and the fourth power (R151). -/
theorem expPoly_nonneg (mode : RoundingPolicy) {r : Int} (h : |r| ≤ 2 ^ 15) : 0 ≤ expPoly mode r := by
  have hsquare : 0 ≤ mulQ16 mode r r := rshiftRound_nonneg mode (mul_self_nonneg r) 16
  have hcube := abs_mulQ16_le_half mode (abs_mulQ16_le_half mode h h) h
  have hfourth := abs_mulQ16_le_half mode hcube h
  have hterm2 : 0 ≤ tdiv (mulQ16 mode r r) 2 := Int.tdiv_nonneg hsquare (by decide)
  have hterm3 : -5461 ≤ tdiv (mulQ16 mode (mulQ16 mode r r) r) 6 := Int.tdiv_le_tdiv (by decide) (abs_le.mp hcube).1
  have hterm4 : -1365 ≤ tdiv (mulQ16 mode (mulQ16 mode (mulQ16 mode r r) r) r) 24 :=
    Int.tdiv_le_tdiv (by decide) (abs_le.mp hfourth).1
  have hr := (abs_le.mp h).1
  simp only [expPoly]
  omega

theorem scaleBy_nonneg {p : Int} (h : 0 ≤ p) (k : Int) : 0 ≤ scaleBy p k := by
  unfold scaleBy shl asr
  split
  · positivity
  · exact Int.ediv_nonneg h (by positivity)

/-- The `v` of R151, before it is compared with the maximum. -/
def expValue (c : Cfg) (x : Int) : Int := scaleBy (expPoly c.rounding (expR x)) (expK x)

theorem expValue_nonneg (c : Cfg) {x : Int} (h0 : -16 ≤ expK x) (h1 : expK x ≤ 15) : 0 ≤ expValue c x :=
  scaleBy_nonneg (expPoly_nonneg c.rounding (abs_expR_le_half h0 h1)) _

/-! ### The logarithm -/

/-- The mantissa is in `[1, 2)` (R153). -/
theorem lnM_between {x : Int} (h0 : 0 < x) (h1 : x < 2 ^ 31) : 2 ^ 16 ≤ lnM x ∧ lnM x < 2 ^ 17 := by
  obtain ⟨-, hlow, hhigh⟩ := msb32_i32 h0 h1
  unfold lnM
  generalize msb32 x.toNat = p at hlow hhigh ⊢
  rw [pow_succ] at hhigh
  split
  next hp =>
    have hscale : (0 : Int) < 2 ^ (16 - p) := by positivity
    have hone := shl_two_pow hp
    unfold shl at hone ⊢
    exact ⟨hone ▸ mul_le_mul_of_nonneg_right hlow hscale.le, by linarith [mul_lt_mul_of_pos_right hhigh hscale]⟩
  next hp =>
    have hscale : (0 : Int) < 2 ^ (p - 16) := by positivity
    have hone : (2 : Int) ^ 16 * 2 ^ (p - 16) = 2 ^ p := pow_mul_pow_sub 2 (by omega)
    unfold asr
    exact ⟨(Int.le_ediv_iff_mul_le hscale).mpr (by omega), (Int.ediv_lt_iff_lt_mul hscale).mpr (by omega)⟩

/-- The quotient `(m-1)/(m+1)` is in `[0, 1/2]` (R153). -/
theorem lnT_between {x : Int} (h0 : 0 < x) (h1 : x < 2 ^ 31) : 0 ≤ lnT x ∧ lnT x ≤ 2 ^ 15 := by
  obtain ⟨hlow, hhigh⟩ := lnM_between h0 h1
  have hnum : 0 ≤ (lnM x - 65536) * 2 ^ 16 := by omega
  rw [lnT, tdiv, shl, Int.tdiv_eq_ediv_of_nonneg hnum]
  exact ⟨Int.ediv_nonneg hnum (by omega), Int.ediv_le_of_le_mul (by omega) (by omega)⟩

theorem artanhSeries_between (mode : RoundingPolicy) {t : Int} (h0 : 0 ≤ t) (h1 : t ≤ 2 ^ 15) :
    0 ≤ artanhSeries mode t ∧ artanhSeries mode t ≤ 2 ^ 17 := by
  have hsquare := mulQ16_between mode ⟨h0, h1⟩ ⟨h0, h1⟩
  have hcube := mulQ16_between mode hsquare ⟨h0, h1⟩
  have hfifth := mulQ16_between mode hcube hsquare
  have hterm3 := Int.tdiv_nonneg hcube.1 (b := 3) (by decide)
  have hterm3_le := Int.tdiv_le_self 3 hcube.1
  have hterm5 := Int.tdiv_nonneg hfifth.1 (b := 5) (by decide)
  have hterm5_le := Int.tdiv_le_self 5 hfifth.1
  simp only [artanhSeries, tdiv]
  omega

theorem lnValue_between (c : Cfg) {x : Int} (h0 : 0 < x) (h1 : x < 2 ^ 31) :
    -726816 ≤ lnValue c x ∧ lnValue c x < 2 ^ 31 := by
  obtain ⟨hplace, -, -⟩ := msb32_i32 h0 h1
  obtain ⟨ht0, ht1⟩ := lnT_between h0 h1
  obtain ⟨hs0, hs1⟩ := artanhSeries_between c.rounding ht0 ht1
  rw [lnValue, lnE, ln2Q16]
  omega

/-! ### Logarithm and exponential at powers of two -/

theorem msb32_toNat_two_pow {p : Nat} (h : p ≤ 30) : msb32 ((2 : Int) ^ p).toNat = p := by
  rw [Int.toNat_pow_of_nonneg (by decide)]
  exact msb32_two_pow (by omega)

theorem lnM_two_pow {p : Nat} (h : p ≤ 30) : lnM (2 ^ p) = 2 ^ 16 := by
  rw [lnM, msb32_toNat_two_pow h]
  split
  next hp => exact shl_two_pow hp
  next hp => exact asr_two_pow (not_le.mp hp).le

@[simp] theorem artanhSeries_zero (mode : RoundingPolicy) : artanhSeries mode 0 = 0 := by
  simp [artanhSeries, tdiv]

/-- The mantissa 1.0 has no series, so the logarithm is the exponent's multiple of `ln2` alone, in every mode (R153). -/
theorem lnValue_two_pow (c : Cfg) {p : Nat} (h : p ≤ 30) : lnValue c (2 ^ p) = ((p : Int) - 16) * 45426 := by
  have ht : lnT (2 ^ p) = 0 := by
    rw [lnT, lnM_two_pow h]
    rfl
  rw [lnValue, ht, artanhSeries_zero, lnE, msb32_toNat_two_pow h, ln2Q16, mul_zero, zero_add]

/-- A multiple `e · ln2` has `k = e` and nothing left over (R151). -/
theorem expK_mul_ln2 {e : Int} (h0 : -16 ≤ e) (h1 : e ≤ 15) : expK (e * 45426) = e := by
  simp only [expK, asr, invLn2Q16]
  omega

@[simp] theorem expPoly_zero (mode : RoundingPolicy) : expPoly mode 0 = 2 ^ 16 := by
  simp [expPoly, tdiv]

theorem scaleBy_one (p : Nat) : scaleBy (2 ^ 16) ((p : Int) - 16) = 2 ^ p := by
  unfold scaleBy
  split
  next hp =>
    rw [show ((p : Int) - 16).toNat = p - 16 by omega]
    exact shl_two_pow (by omega)
  next hp =>
    rw [show (-((p : Int) - 16)).toNat = 16 - p by omega]
    exact asr_two_pow (by omega)

theorem expValue_mul_ln2 (c : Cfg) {p : Nat} (h : p ≤ 30) : expValue c (((p : Int) - 16) * 45426) = 2 ^ p := by
  have hk : expK (((p : Int) - 16) * 45426) = (p : Int) - 16 := expK_mul_ln2 (by omega) (by omega)
  rw [expValue, expR, hk, ln2Q16, sub_self, expPoly_zero, scaleBy_one]

theorem i32_wordOf {v : Int} (h0 : -2 ^ 31 ≤ v) (h1 : v < 2 ^ 31) : i32 (wordOf v) = v :=
  rawOf_wordOf (f := signed32) rfl h0 (Int.le_sub_one_of_lt h1)

/-! ### What the operations answer -/

section
variable {s : State}

theorem exec_exp16_above (h : 15 < expK (i32 s.host.opA)) : Answers (exec .exp16 s) s 0x7FFFFFFF 0 0x04 := by
  rw [exec_exp16, readI32_eq_i32, expResponse, if_pos h]
  exact answers_respond s _ _ _

theorem exec_exp16_below (h : expK (i32 s.host.opA) < -16) : Answers (exec .exp16 s) s 0 0 0x04 := by
  rw [exec_exp16, readI32_eq_i32, expResponse, if_neg (by omega), if_pos h]
  exact answers_respond s _ _ _

/-- With `k` in its window, the value or, above the maximum, the maximum and `RO` (R151). -/
theorem exec_exp16_inside (h0 : -16 ≤ expK (i32 s.host.opA)) (h1 : expK (i32 s.host.opA) ≤ 15) :
    exec .exp16 s = answer (if q16Max < expValue s.cfg (i32 s.host.opA) then respond (sext64 q16Max) 0 { ro := true }
      else respond (sext64 (expValue s.cfg (i32 s.host.opA))) 0 {}) s := by
  rw [exec_exp16, readI32_eq_i32, expResponse, if_neg (by omega), if_neg (by omega)]
  rfl

theorem exec_exp16_of_exceeds (h0 : -16 ≤ expK (i32 s.host.opA)) (h1 : expK (i32 s.host.opA) ≤ 15)
    (h : q16Max < expValue s.cfg (i32 s.host.opA)) : Answers (exec .exp16 s) s 0x7FFFFFFF 0 0x04 := by
  rw [exec_exp16_inside h0 h1, if_pos h]
  exact answers_respond s _ _ _

theorem exec_exp16_of_fits (h0 : -16 ≤ expK (i32 s.host.opA)) (h1 : expK (i32 s.host.opA) ≤ 15)
    (h : expValue s.cfg (i32 s.host.opA) ≤ q16Max) :
    Answers (exec .exp16 s) s (wordOf (expValue s.cfg (i32 s.host.opA))) 0 0x00 := by
  rw [exec_exp16_inside h0 h1, if_neg (not_lt.mpr h)]
  exact answers_respond s _ _ _

theorem exec_ln16_of_nonpos (h : i32 s.host.opA ≤ 0) : Answers (exec .ln16 s) s 0xFFFFFFFF80000000 0 0x02 := by
  rw [exec_ln16, readI32_eq_i32, lnResponse, if_pos h]
  exact answers_respond s _ _ _

theorem exec_ln16_of_pos (h : 0 < i32 s.host.opA) :
    Answers (exec .ln16 s) s (wordOf (lnValue s.cfg (i32 s.host.opA))) 0 0x00 := by
  rw [exec_ln16, readI32_eq_i32, lnResponse, if_neg (not_le.mpr h)]
  exact answers_respond s _ _ _

/-- The exponential of a multiple of `ln2` is a power of two, without a flag, in every mode (R154). -/
theorem exec_exp16_of_mul_ln2 {p : Nat} (hp : p ≤ 30) (h : i32 s.host.opA = ((p : Int) - 16) * 45426) :
    Answers (exec .exp16 s) s (wordOf (2 ^ p)) 0 0x00 := by
  have hk : expK (i32 s.host.opA) = (p : Int) - 16 := h ▸ expK_mul_ln2 (by omega) (by omega)
  have hv : expValue s.cfg (i32 s.host.opA) = 2 ^ p := h ▸ expValue_mul_ln2 s.cfg hp
  have hmax : (2 : Int) ^ p ≤ 2 ^ 30 := pow_le_pow_right₀ one_le_two hp
  rw [← hv]
  exact exec_exp16_of_fits (by omega) (by omega) (hv ▸ hmax.trans (by decide))

end

/-! ### The obligations of 45_explog.md -/

/-- Settles O52: the three windows of `k`, and in the middle one a polynomial that is not negative, shifted. -/
theorem exp16EvaluatesThePolynomial : Obligations.Exp16EvaluatesThePolynomial :=
  ⟨plainOpcode_of_noFmt (i := .exp16) rfl, fun s => ⟨exec_exp16_above, exec_exp16_below, fun h0 h1 =>
    ⟨expValue_nonneg s.cfg h0 h1, exec_exp16_of_exceeds h0 h1, exec_exp16_of_fits h0 h1⟩⟩⟩

/-- Settles O54: the place of the highest bit is `msb32`, and `t` in `[0, 1/2]` bounds the series. -/
theorem ln16SumsTheSeries : Obligations.Ln16SumsTheSeries := by
  refine ⟨plainOpcode_of_noFmt (i := .ln16) rfl, fun s => ⟨exec_ln16_of_nonpos, fun h => ?_⟩⟩
  obtain ⟨-, hmax⟩ := readI32_bounds s.host.opA
  rw [readI32_eq_i32] at hmax
  obtain ⟨hplace, hlow, hhigh⟩ := msb32_i32 h hmax
  obtain ⟨hv0, hv1⟩ := lnValue_between s.cfg h hmax
  exact ⟨msb32 (i32 s.host.opA).toNat, hplace, hlow, hhigh, hv0, hv1, exec_ln16_of_pos h⟩

/-- Settles O55: the logarithm is a multiple of `ln2`, which the exponential reduces to 0. -/
theorem expInvertsLnAtPowersOfTwo : Obligations.ExpInvertsLnAtPowersOfTwo := by
  intro s p hp hx
  have hln := exec_ln16_of_pos (s := s) (hx ▸ by positivity)
  rw [hx, lnValue_two_pow s.cfg hp] at hln
  exact ⟨_, hln, rfl, fun b => exec_exp16_of_mul_ln2 hp (i32_wordOf (by omega) (by omega))⟩

end Sys2Proof.Machine
end

section
/-! SUPPORT. The `STATUS` values each operation can return and the legality of its response, what a step does with a trapped response,
and where the value of EXP16 leaves the range (60_exceptions.md R171 to R181). -/

namespace Sys2Proof.Machine

open Sys2Proof.Claims

/-! ### Responses as their status says -/

/-- The legality of a response, clause by clause (60 R175, R176; 30 R45). -/
theorem Response.legal_iff (c : Cfg) (r : Response) :
    r.legal c = true ↔ r.status ∈ legalStatuses ∧ (hasIll r = true → r.r0 = 0 ∧ r.r1 = 0) ∧
      (hasTrap r = true → c.overflow = .trap) := by
  simp only [Response.legal, Bool.and_eq_true, and_assoc, List.contains_iff_mem]
  cases hasIll r <;> cases hasTrap r <;> simp

/-- The values of R175 with no `ILL` and no `TRAP`: at most one kind is reported. -/
def plainStatuses : List StatusWord := [0x00, 0x01, 0x02, 0x04, 0x08]

theorem legal_of_plainStatus (c : Cfg) {r : Response} (h : r.status ∈ plainStatuses) : r.legal c = true := by
  have hbits : ∀ w ∈ plainStatuses, w ∈ legalStatuses ∧ w.getLsbD 5 = false ∧ w.getLsbD 4 = false := by decide
  obtain ⟨hmem, hill, htrap⟩ := hbits r.status h
  exact (Response.legal_iff c r).mpr ⟨hmem, fun h => absurd h (Bool.eq_false_iff.mp hill),
    fun h => absurd h (Bool.eq_false_iff.mp htrap)⟩

theorem legal_of_trapStatus {c : Cfg} {r : Response} (h : r.status = 0x18) (hc : c.overflow = .trap) :
    r.legal c = true :=
  (Response.legal_iff c r).mpr ⟨h ▸ by decide, by simp [hasIll, h], fun _ => hc⟩

theorem illegalResponse_legal (c : Cfg) : illegalResponse.legal c = true :=
  (Response.legal_iff c _).mpr ⟨by decide, by decide, fun htrap => absurd htrap (by decide)⟩

/-! ### The STATUS values of the table -/

theorem mem_plainStatuses_of_subset {l : List StatusWord} {w : StatusWord} (hl : l ⊆ plainStatuses) (h : w ∈ l) :
    w ∈ plainStatuses := hl h

theorem mem_resolveStatuses {c : Cfg} {w : StatusWord} (h : w ∈ resolveStatuses c) :
    w ∈ plainStatuses ∨ (w = 0x18 ∧ c.overflow = .trap) := by
  unfold resolveStatuses at h
  split at h
  next hc =>
    obtain rfl | rfl := List.mem_pair.mp h
    · exact .inl (by decide)
    · exact .inr ⟨rfl, hc⟩
  next => exact .inl (mem_plainStatuses_of_subset (by decide) h)

/-- What an operation can return beside its plain values is the trap, under the trap policy only (R175, R176). -/
theorem mem_statusesOf {c : Cfg} {i : Instr} {w : StatusWord} (h : w ∈ statusesOf c i) :
    w ∈ plainStatuses ∨ (w = 0x18 ∧ c.overflow = .trap) := by
  cases i with
  | qadd | qsub | qmul | qabs | qneg | qfromint | narrow => exact mem_resolveStatuses h
  | qdiv | fdiv16 | sdiv32 =>
    obtain rfl | h := List.mem_cons.mp h
    · exact .inl (by decide)
    · exact mem_resolveStatuses h
  | satadd | satsub | qone | qhalf | qtoint | rshr | sincos | atan2m | div32 | recip32 | isqrt16 | sqrt16 | ln16 | exp16 =>
    simp only [statusesOf] at h
    exact .inl (mem_plainStatuses_of_subset (by decide) h)

/-! ### The STATUS an operation answers -/

/-- `o` answers in `s`, with one of the listed `STATUS` values. -/
def AnswersWithin (s : State) (l : List StatusWord) (o : Result) : Prop := ∃ r, o = answer r s ∧ r.status ∈ l

section
variable {s : State} {l : List StatusWord}

theorem answer_within {r : Response} (h : r.status ∈ l) : AnswersWithin s l (answer r s) := ⟨r, rfl, h⟩

theorem inFormat_within {fmt : Nat} {k : Format → Response} (hfmt : fmt < s.cfg.formats.length)
    (hk : ∀ f, (k f).status ∈ l) : AnswersWithin s l (inFormat fmt s k) := by
  rw [inFormat_of_some (List.getElem?_eq_getElem hfmt)]
  exact answer_within (hk _)

theorem resolvedResponse_status (s : State) (f : Format) (v : Int) :
    (resolvedResponse s f v).status ∈ resolveStatuses s.cfg := by
  obtain ⟨-, e⟩ | ⟨-, hp, e⟩ | ⟨-, hp, e⟩ | ⟨-, hp, e⟩ := resolvedResponse_cases s f v
  · rw [e, resolveStatuses]
    split <;> exact List.mem_cons_self
  all_goals
    rw [e, resolveStatuses, hp]
    exact List.mem_pair.mpr (.inr rfl)

/-- The shape of QDIV, SDIV32 and FDIV16: `DZ` alone by 0, else what `resolve` yields (R171). -/
theorem quotientResponse_status (s : State) (f : Format) (a b v : Int) :
    (if b = 0 then zeroDivisorResponse f a else resolvedResponse s f v).status ∈ 0x01 :: resolveStatuses s.cfg := by
  split
  · exact List.mem_cons_self
  · exact List.mem_cons_of_mem _ (resolvedResponse_status s f v)

theorem respond_status (r0 r1 : Word) : (respond r0 r1 {}).status ∈ [(0x00 : StatusWord)] := List.mem_singleton.mpr rfl

theorem clampedResponse_status (f : Format) (v : Int) : (clampedResponse f v).status ∈ [(0x00 : StatusWord), 0x08] := by
  rw [clampedResponse]
  cases decide (clampTo f v ≠ v)
  · exact List.mem_pair.mpr (.inl rfl)
  · exact List.mem_pair.mpr (.inr rfl)

theorem recip32_status (x : Nat) (w : Word) : (respond w 0 { dz := decide (x = 0) }).status ∈ [(0x00 : StatusWord), 0x01] := by
  cases decide (x = 0)
  · exact List.mem_pair.mpr (.inl rfl)
  · exact List.mem_pair.mpr (.inr rfl)

theorem div32Response_status (a b : Nat) : (div32Response a b).status ∈ [(0x00 : StatusWord), 0x01] := by
  unfold div32Response
  split
  · exact List.mem_pair.mpr (.inr rfl)
  · exact List.mem_pair.mpr (.inl rfl)

theorem isqrtResponse_status (c : Cfg) (x : Int) : (isqrtResponse c x).status ∈ [(0x00 : StatusWord), 0x01, 0x02] := by
  unfold isqrtResponse
  split
  · exact List.mem_cons_of_mem _ (List.mem_pair.mpr (.inr rfl))
  · split
    · exact List.mem_cons_of_mem _ (List.mem_pair.mpr (.inl rfl))
    · exact List.mem_cons_self

theorem sqrtResponse_status (c : Cfg) (x : Int) : (sqrtResponse c x).status ∈ [(0x00 : StatusWord), 0x02] := by
  unfold sqrtResponse
  split
  · exact List.mem_pair.mpr (.inr rfl)
  · split <;> exact List.mem_pair.mpr (.inl rfl)

theorem expResponse_status (c : Cfg) (x : Int) : (expResponse c x).status ∈ [(0x00 : StatusWord), 0x04] := by
  unfold expResponse
  split
  · exact List.mem_pair.mpr (.inr rfl)
  · split
    · exact List.mem_pair.mpr (.inr rfl)
    · simp only []
      split
      · exact List.mem_pair.mpr (.inr rfl)
      · exact List.mem_pair.mpr (.inl rfl)

theorem lnResponse_status (c : Cfg) (x : Int) : (lnResponse c x).status ∈ [(0x00 : StatusWord), 0x02] := by
  unfold lnResponse
  split
  · exact List.mem_pair.mpr (.inr rfl)
  · exact List.mem_pair.mpr (.inl rfl)

/-- Where its `fmt`, if it takes one, names a format, an operation answers a value of its own row (R175). -/
theorem exec_within (i : Instr) (h : ∀ n, i.fmt? = some n → n < s.cfg.formats.length) :
    AnswersWithin s (statusesOf s.cfg i) (exec i s) := by
  cases i with
  | qadd fmt | qsub fmt | qmul fmt | qabs fmt | qneg fmt =>
    exact inFormat_within (h fmt rfl) fun f => resolvedResponse_status s f _
  -- QFROMINT and NARROW go by their equation: unfolded, the kernel would evaluate the literal powers of `readI64`.
  | qfromint fmt =>
    rw [exec_qfromint (List.getElem?_eq_getElem (h fmt rfl))]
    exact answer_within (resolvedResponse_status s _ _)
  | narrow fmt =>
    rw [exec_narrow (List.getElem?_eq_getElem (h fmt rfl))]
    exact answer_within (resolvedResponse_status s _ _)
  | qdiv fmt => exact inFormat_within (h fmt rfl) fun f => quotientResponse_status s f _ _ _
  | satadd fmt | satsub fmt => exact inFormat_within (h fmt rfl) fun f => clampedResponse_status f _
  | qone fmt | qhalf fmt | qtoint fmt => exact inFormat_within (h fmt rfl) fun _ => respond_status _ _
  | rshr | sincos | atan2m => exact answer_within (respond_status _ _)
  | fdiv16 | sdiv32 => exact answer_within (quotientResponse_status s q16 _ _ _)
  | recip32 => exact answer_within (recip32_status _ _)
  | div32 => exact answer_within (div32Response_status _ _)
  | isqrt16 => exact answer_within (isqrtResponse_status _ _)
  | sqrt16 => exact answer_within (sqrtResponse_status _ _)
  | exp16 => exact answer_within (expResponse_status _ _)
  | ln16 => exact answer_within (lnResponse_status _ _)

/-- An operation answers a value of its own row, or `ILL` where its `fmt` names no format (R175, R177). -/
theorem exec_within_or_illegal (i : Instr) (s : State) :
    ((∀ n, i.fmt? = some n → n < s.cfg.formats.length) ∧ AnswersWithin s (statusesOf s.cfg i) (exec i s)) ∨
    ∃ n, i.fmt? = some n ∧ s.cfg.formats.length ≤ n ∧ exec i s = answer illegalResponse s := by
  by_cases h : ∀ n, i.fmt? = some n → n < s.cfg.formats.length
  · exact .inl ⟨h, exec_within i h⟩
  · push Not at h
    obtain ⟨n, hn, hlen⟩ := h
    exact .inr ⟨n, hn, hlen, exec_of_noFormat hn (List.getElem?_eq_none hlen)⟩

/-- Every operation answers a legal response, on every state. -/
theorem exec_legal (i : Instr) (s : State) : ∃ r, exec i s = answer r s ∧ r.legal s.cfg = true := by
  obtain ⟨-, r, hr, hstatus⟩ | ⟨-, -, -, hr⟩ := exec_within_or_illegal i s
  · obtain hplain | ⟨htrap, hc⟩ := mem_statusesOf hstatus
    · exact ⟨r, hr, legal_of_plainStatus s.cfg hplain⟩
    · exact ⟨r, hr, legal_of_trapStatus htrap hc⟩
  · exact ⟨_, hr, illegalResponse_legal s.cfg⟩

end

/-! ### Steps -/

section
variable {s : State} {r q : Response}

theorem answer_inj (h : answer r s = answer q s) : r = q := by
  simp only [answer_eq, Host.Outcome.next.injEq] at h
  simpa using congrArg State.pending h

/-- A request is accepted with a legal response, whatever the command word (30 R49, 60 R175). -/
theorem legal_of_acceptRequest (h : acceptRequest s = answer r s) : r.legal s.cfg = true := by
  obtain ⟨i, q, -, hexec, e⟩ | e := acceptRequest_cases s
  · obtain ⟨p, hp, hlegal⟩ := exec_legal i s
    rwa [answer_inj (h.symm.trans e), answer_inj (hexec.symm.trans hp)]
  · rw [answer_inj (h.symm.trans e)]
    exact illegalResponse_legal s.cfg

@[simp] theorem advance_inv (s : State) : (advance s).inv = s.inv := by
  simp [State.inv]

theorem takeResponse_of_trap (htrap : hasTrap r = true) (hstop : s.stopOnTrap = true) :
    takeResponse r s = .fault .trapResponse := by
  simp [takeResponse, htrap, hstop]

/-- To a host that does not stop on traps the response is one like any other (60 R181). -/
theorem takeResponse_of_goesOn (hgo : s.stopOnTrap = false) (hill : hasIll r = false) :
    takeResponse r s = .next (recordResponse r (setPending none s)) := by
  simp [takeResponse, hgo, hill]

end

/-! ### Where EXP16 leaves the range -/

/-- The product with a factor of at most one half has half the magnitude, and one more for the rounding. -/
theorem natAbs_mulQ16_le (mode : RoundingPolicy) (a : Int) {b : Int} (hb : b.natAbs ≤ 2 ^ 15) :
    2 * (mulQ16 mode a b).natAbs ≤ a.natAbs + 2 := by
  have hproduct : (a * b).natAbs ≤ a.natAbs * 2 ^ 15 := by
    rw [Int.natAbs_mul]
    exact Nat.mul_le_mul_left _ hb
  obtain ⟨hfloor, hceil⟩ := rshiftRound_bounds mode (a * b) 16
  unfold mulQ16
  omega

/-- The terms from the second power on weigh less than `r` itself, in every mode (R151). -/
theorem natAbs_expPoly_tail_lt (mode : RoundingPolicy) {r : Int} (h : |r| ≤ 2 ^ 15) (hr : r ≠ 0) :
    (expPoly mode r - (2 ^ 16 + r)).natAbs < r.natAbs := by
  have hhalf : r.natAbs ≤ 2 ^ 15 := by
    rw [Int.abs_eq_natAbs] at h
    omega
  have hsquare := natAbs_mulQ16_le mode r hhalf
  have hcube := natAbs_mulQ16_le mode (mulQ16 mode r r) hhalf
  have hfourth := natAbs_mulQ16_le mode (mulQ16 mode (mulQ16 mode r r) r) hhalf
  simp only [expPoly]
  generalize mulQ16 mode r r = r2 at *
  generalize mulQ16 mode r2 r = r3 at *
  generalize mulQ16 mode r3 r = r4 at *
  have hterm2 : (tdiv r2 2).natAbs = r2.natAbs / 2 := Int.natAbs_tdiv r2 2
  have hterm3 : (tdiv r3 6).natAbs = r3.natAbs / 6 := Int.natAbs_tdiv r3 6
  have hterm4 : (tdiv r4 24).natAbs = r4.natAbs / 24 := Int.natAbs_tdiv r4 24
  omega

/-- The polynomial is on the side of 1.0 on which `r` is of 0, and stays below 2.0 (R151, R173). -/
theorem expPoly_between (mode : RoundingPolicy) {r : Int} (h : |r| ≤ 2 ^ 15) :
    (0 ≤ r → 2 ^ 16 ≤ expPoly mode r) ∧ (r < 0 → expPoly mode r < 2 ^ 16) ∧ expPoly mode r < 2 ^ 17 := by
  obtain rfl | hr := eq_or_ne r 0
  · simp
  · have htail := natAbs_expPoly_tail_lt mode h hr
    rw [abs_le] at h
    omega

/-- The largest `k` is reached before `15 · ln2`, so from there on `r` is not negative (R173). -/
theorem fifteen_le_expK {x : Int} (h : 681390 ≤ x) : 15 ≤ expK x := by
  simp only [expK, asr, invLn2Q16]
  omega

theorem expK_le_fifteen {x : Int} (h : x < 681390) : expK x ≤ 15 := by
  simp only [expK, asr, invLn2Q16]
  omega

theorem expK_lt_iff (x : Int) : expK x < -16 ↔ x ≤ -749535 := by
  simp only [expK, asr, invLn2Q16]
  omega

theorem scaleBy_fifteen (p : Int) : scaleBy p 15 = p * 2 ^ 15 := rfl

theorem scaleBy_le_of_le_fourteen {p k : Int} (h0 : 0 ≤ p) (h1 : p < 2 ^ 17) (hk : k ≤ 14) : scaleBy p k ≤ q16Max := by
  unfold scaleBy shl asr q16Max
  split
  · have hscale : (2 : Int) ^ k.toNat ≤ 2 ^ 14 := pow_le_pow_right₀ one_le_two (by omega)
    have hproduct : p * 2 ^ k.toNat ≤ p * 2 ^ 14 := mul_le_mul_of_nonneg_left hscale h0
    omega
  · exact (Int.ediv_le_self _ h0).trans (by omega)

/-- From `15 · ln2` up the polynomial is at least 1.0, and `1.0 · 2^15` is one above the maximum (R173). -/
theorem q16Max_lt_expValue (c : Cfg) {x : Int} (h : 681390 ≤ x) (h1 : expK x ≤ 15) : q16Max < expValue c x := by
  have hk : expK x = 15 := le_antisymm h1 (fifteen_le_expK h)
  have hr : 0 ≤ expR x := by
    rw [expR, hk, ln2Q16]
    omega
  have hpoly := (expPoly_between c.rounding (abs_expR_le_half (by omega) h1)).1 hr
  rw [expValue, hk, scaleBy_fifteen, q16Max]
  omega

/-- Below `15 · ln2` either `k` is smaller, or `r` is negative and the polynomial below 1.0 (R173). -/
theorem expValue_le_q16Max (c : Cfg) {x : Int} (h0 : -16 ≤ expK x) (h : x < 681390) : expValue c x ≤ q16Max := by
  have h1 := expK_le_fifteen h
  have hhalf := abs_expR_le_half h0 h1
  obtain ⟨-, hneg, htwo⟩ := expPoly_between c.rounding hhalf
  rw [expValue]
  obtain hk | hk := eq_or_lt_of_le h1
  · have hr : expR x < 0 := by
      rw [expR, hk, ln2Q16]
      omega
    have hone := hneg hr
    rw [hk, scaleBy_fifteen, q16Max]
    omega
  · exact scaleBy_le_of_le_fourteen (expPoly_nonneg c.rounding hhalf) htwo (by omega)

/-! ### The obligations of 60_exceptions.md -/

/-- Settles O14: of the five ways a step goes on, accepting makes a legal response pending, and taking moves the pending one. -/
theorem stepKeepsTheInvariant : Obligations.StepKeepsTheInvariant := by
  intro s t hs h
  obtain ⟨-, u, hu, rfl⟩ := step_next h
  rw [advance_inv]
  obtain ⟨hwf, hpending, hresponses⟩ := (State.inv_iff s).mp hs
  obtain ⟨-, rfl⟩ | ⟨r, -, hp, -, rfl⟩ | ⟨r, -, -, -, rfl⟩ | ⟨r, -, -, -, haccept, rfl⟩ | ⟨-, -, -, rfl⟩ :=
    react_next_cases hu
  · exact (State.inv_iff _).mpr ⟨hwf, by simp, hresponses⟩
  · refine (State.inv_iff _).mpr ⟨hwf, by simp, fun q hq => ?_⟩
    obtain hq | hq := List.mem_append.mp hq
    · exact hresponses q hq
    · exact hpending q (List.mem_singleton.mp hq ▸ hp)
  · exact hs
  · refine (State.inv_iff _).mpr ⟨hwf, fun q hq => ?_, hresponses⟩
    have hlegal := legal_of_acceptRequest haccept
    exact Option.some.inj hq ▸ hlegal
  · exact hs

/-- Settles O12: a legal command's `fmt` names a format, so its status is of its row; one that names none is answered `ILL`. -/
theorem statusValuesAreThoseOfTheTable : Obligations.StatusValuesAreThoseOfTheTable := by
  intro i s
  obtain ⟨h, r, hr, hstatus⟩ | ⟨n, hn, hlen, hr⟩ := exec_within_or_illegal i s
  · exact ⟨r, hr, fun _ => hstatus, fun n hn hlen => absurd (h n hn) (not_lt.mpr hlen)⟩
  · exact ⟨_, hr, fun hlegal => absurd ((legal_of_fmt hn).mp hlegal).2 (not_lt.mpr hlen), fun _ _ _ => rfl⟩

/-- Settles O13: it holds of each value of R175, and every response has one of them. -/
theorem atMostOneKindIsReported : Obligations.AtMostOneKindIsReported := by
  intro i s
  have hbits : ∀ w ∈ legalStatuses,
      (w.getLsbD 0).toNat + (w.getLsbD 1).toNat + (w.getLsbD 2).toNat + (w.getLsbD 3).toNat + (w.getLsbD 5).toNat ≤ 1 ∧
      (w.getLsbD 4 = true → w.getLsbD 3 = true) ∧ w.getLsbD 6 = false ∧ w.getLsbD 7 = false := by decide
  obtain ⟨r, hr, hlegal⟩ := exec_legal i s
  obtain ⟨hstatus, -, -⟩ := (Response.legal_iff s.cfg r).mp hlegal
  exact ⟨r, hr, hbits r.status hstatus⟩

/-- Settles O21: the host's two answers to a trap, and of the values of R175 only 0x18 has `TRAP`, under the trap policy. -/
theorem trapIsAFaultOfTheHostAlone : Obligations.TrapIsAFaultOfTheHostAlone := by
  refine ⟨fun s r hwf hr hp htrap hy => ?_, fun i s => ?_⟩
  · rw [step_of_wf hwf, react_take hr hp hy]
    exact ⟨fun hstop => by rw [takeResponse_of_trap htrap hstop]; rfl,
      fun hgo hill => by rw [takeResponse_of_goesOn hgo hill]; rfl⟩
  · have htraps : ∀ w ∈ legalStatuses, w.getLsbD 4 = true → w = 0x18 := by decide
    obtain ⟨r, hr, hlegal⟩ := exec_legal i s
    obtain ⟨hstatus, -, hpolicy⟩ := (Response.legal_iff s.cfg r).mp hlegal
    exact ⟨r, hr, fun htrap => ⟨hpolicy htrap, htraps r.status hstatus htrap⟩⟩

/-- Settles O53: the upper threshold is `15 · ln2`, where the polynomial passes 1.0 at the largest `k`; the lower is where `k` leaves
its window. -/
theorem exp16RangeOverflowThresholds : Obligations.Exp16RangeOverflowThresholds := by
  intro s
  refine ⟨fun h => ?_, fun h => exec_exp16_below ((expK_lt_iff _).mpr h), fun hlow hhigh => ?_⟩
  · have h0 := fifteen_le_expK h
    obtain hk | hk := lt_or_ge 15 (expK (i32 s.host.opA))
    · exact exec_exp16_above hk
    · exact exec_exp16_of_exceeds (by omega) hk (q16Max_lt_expValue s.cfg h hk)
  · have h0 : -16 ≤ expK (i32 s.host.opA) := not_lt.mp fun hk => absurd ((expK_lt_iff _).mp hk) (not_le.mpr hlow)
    have h1 := expK_le_fifteen hhigh
    have hmax := expValue_le_q16Max s.cfg h0 hhigh
    exact ⟨_, expValue_nonneg s.cfg h0 h1, hmax, exec_exp16_of_fits h0 h1 hmax⟩

end Sys2Proof.Machine
end

section
/-! SUPPORT. What a step of an existing instance is in terms of CORE's reaction, and what the response port shows (70 R190 to R197). -/

namespace Sys2Proof.Machine

section
variable {s u : State} {r : Response}

/-- Where CORE's reaction goes on, so does the step, with the host's next levels (R194, entry 6). -/
theorem step_of_react (hwf : s.cfg.wf = true) (h : react s = .next u) : step s = .next (advance u) := by
  rw [step_of_wf hwf, h, afterStep]

/-- A request is accepted with some response, whatever the command word (20_memory.md R39, 30_encoding.md R49). -/
theorem acceptRequest_answers (s : State) : ∃ r, acceptRequest s = answer r s := by
  obtain ⟨-, r, -, -, h⟩ | h := acceptRequest_cases s
  · exact ⟨r, h⟩
  · exact ⟨_, h⟩

/-- No host stops on a response without `TRAP` and `ILL` (60 R176, 30 R49). -/
theorem takeResponse_of_noTrap_noIll (htrap : hasTrap r = false) (hill : hasIll r = false) (s : State) :
    takeResponse r s = .next (recordResponse r (setPending none s)) := by
  simp [takeResponse, htrap, hill]

/-- Out of reset the pending response is offered (R194.2, R194.5). -/
theorem offered_of_pending (hp : s.pending = some r) (hr : s.host.resetIn = false) :
    rspValid s = true ∧ rspPayload s = r :=
  ⟨(rspValid_iff s).mpr ⟨hr, r, hp⟩, rspPayload_of_pending hr hp⟩

/-- In reset CORE is not ready, whatever is pending (R190). -/
theorem reqReady_of_reset (h : s.host.resetIn = true) : reqReady s = false := by
  simp [reqReady, h]

/-- In reset nothing is offered, whatever is pending (R190). -/
theorem rspValid_of_reset (h : s.host.resetIn = true) : rspValid s = false := by
  simp [rspValid, h]

end

/-! ### The obligations of 70_reset_and_hazards.md -/

/-- Settles O16: `pending` is `none` and the reset input low in the state after reset. -/
theorem resetHoldsNoTransaction : Obligations.ResetHoldsNoTransaction :=
  ⟨rfl, rspValid_of_none rfl, (reqReady_iff _).mpr ⟨rfl, rfl⟩⟩

/-- Settles O7: the step is the reaction, which is `exec i`, and `advance` by the two cases of the script. -/
theorem stepRunsTheDecodedInstruction : Obligations.StepRunsTheDecodedInstruction := by
  refine ⟨fun s t i hwf hr hp hv hdecode hexec => ?_, fun t => ?_⟩
  · have hreact : react s = .next t := by rw [react_accept hr hp hv, acceptRequest_of_decode hdecode, hexec]
    exact step_of_react hwf hreact
  · refine ⟨advance_cfg t, advance_pending t, advance_responses t, advance_stopOnTrap t, advance_stopOnIll t,
      fun hnil => ?_, fun l rest hcons => ?_⟩
    · rw [advance_nil hnil]
      exact ⟨hnil, rfl, rfl, rfl⟩
    · rw [advance_cons hcons]
      exact ⟨rfl, rfl⟩

/-- Settles O18: in reset the reaction empties `pending` and leaves the rest, so CORE is ready once the reset is released. -/
theorem assertedResetDropsTheTransaction : Obligations.AssertedResetDropsTheTransaction := by
  intro s hwf hr
  have hempty : (advance (setPending none s)).pending = none := advance_pending _
  exact ⟨reqReady_of_reset hr, rspValid_of_reset hr, _, step_of_react hwf (react_reset hr), hempty,
    advance_responses _, advance_cfg _, fun hreleased => (reqReady_iff _).mpr ⟨hreleased, hempty⟩⟩

/-- Settles O19: one reaction for each way the two ports stand out of reset; what is offered next follows from `pending` alone. -/
theorem handshakeFollowsItsRules : Obligations.HandshakeFollowsItsRules := by
  intro s hwf hr
  refine ⟨?ready, ?valid, fun r hp => rspPayload_of_pending hr hp, fun hp hv => ?accepted, fun hp hv => ?idle,
    fun r hp hy => ?held, fun r hp hy htrap hill => ?taken⟩
  case ready => rw [reqReady_iff, and_iff_right hr]
  case valid => rw [rspValid_iff, and_iff_right hr]
  case accepted =>
    obtain ⟨r, haccept⟩ := acceptRequest_answers s
    have hnext : (advance (setPending (some r) s)).pending = some r := advance_pending _
    exact ⟨_, r, step_of_react hwf ((react_accept hr hp hv).trans haccept), hnext, advance_responses _,
      offered_of_pending hnext⟩
  case idle =>
    have hnext : (advance s).pending = none := (advance_pending s).trans hp
    exact ⟨_, step_of_react hwf (react_idle hr hp hv), hnext, advance_responses s, rspValid_of_none hnext⟩
  case held =>
    have hnext : (advance s).pending = some r := (advance_pending s).trans hp
    exact ⟨_, step_of_react hwf (react_hold hr hp hy), hnext, advance_responses s, offered_of_pending hnext⟩
  case taken =>
    have hreact := (react_take hr hp hy).trans (takeResponse_of_noTrap_noIll htrap hill s)
    have hnext : (advance (recordResponse r (setPending none s))).pending = none := advance_pending _
    exact ⟨_, step_of_react hwf hreact, hnext, advance_responses _, rspValid_of_none hnext⟩

end Sys2Proof.Machine
end
